-- ==== Sys2Proof/Word.lean ====
section
/-! DEFINITION. The fixed widths of the block (spec/00_scope.md R7, R8) and the letter case (R11).
All values are unsigned bit vectors of the stated width; nothing here is signed. -/

namespace Sys2Proof

/-- BYTE_W and CHAR_W of R7: a data byte, a character code or a ROM entry. -/
abbrev Byte := BitVec 8

/-- NIB_W of R7: half of a byte. -/
abbrev Nibble := BitVec 4

/-- EPOS_W of R7: an error position. -/
abbrev EPos := BitVec 5

/-- CMD_W of R7: a command word. -/
abbrev CmdWord := BitVec 16

/-- RSP_W of R7: a response word. -/
abbrev RspWord := BitVec 32

/-- The two-valued selector of R11 (the source's EncodeConfig). -/
inductive LetterCase where
  | upper
  | lower
  deriving DecidableEq, Repr

end Sys2Proof
end

