-- ==== Sys2Proof/Config.lean ====
section
/-! DEFINITION. What the spec leaves open. Every parameter of the block has a fixed value (spec/00_scope.md R7),
so the one thing here is a free value. -/

namespace Sys2Proof

/-- What the `rsp` register holds after an edge at which the block accepted nothing and was not reset.
30_encoding.md R90 says that `rsp_valid` is 0 there and says nothing of `rsp`. It has no body: nothing can be
proved of its value. Its arguments are everything the block's logic could make it from: the number of free
values taken before (so each is a fresh one), the old `rsp` and `rsp_valid`, the word on the `cmd` port and the
decoder registers HI, HV, ERR, EPOS. DESIGN CHOICE, safe (log 3). -/
opaque Config.idleRsp (taken : Nat) (oldRsp : RspWord) (oldValid : Bool) (cmdBus : CmdWord)
    (hi : Nibble) (hv err : Bool) (epos : EPos) : RspWord

end Sys2Proof
end

