-- ==== Sys2Proof/Syntax.lean ====
section
/-! DEFINITION. The commands of the block: one constructor per row of spec/opcode_table.json
(spec/30_encoding.md R78). -/

namespace Sys2Proof

/-- The five commands. The only operand is DATA, a whole byte (30_encoding.md R73, R77). -/
inductive Instr where
  /-- ENC.U b: encode the byte `b` with the uppercase alphabet (40_encoder.md R101). -/
  | encU (b : Byte)
  /-- ENC.L b: encode the byte `b` with the lowercase alphabet (40_encoder.md R102). -/
  | encL (b : Byte)
  /-- DBEGIN: start a decode transaction (41_decoder.md R140). -/
  | dbegin
  /-- DCHAR c: present the character code `c` to the decoder (41_decoder.md R142). -/
  | dchar (c : Byte)
  /-- DEND: end a decode transaction (41_decoder.md R150). -/
  | dend
  deriving DecidableEq, Repr

end Sys2Proof
end

