-- ==== Sys2Proof/WellFormed.lean ====
section
/-! DEFINITION. The check on command words: the command map of spec/30_encoding.md R78.
An `Instr` needs no check of its own: DATA takes every value of its eight bits (R73), and the other fields of a
command are fixed by its constructor, so every term of `Instr` is a legal command. -/

namespace Sys2Proof

/-- The part of a command word that a row of R78 fixes (`mask`) and the value it fixes it to. -/
structure CmdPattern where
  fixed : CmdWord
  mask : CmdWord
  deriving DecidableEq, Repr

/-- A word is the command of a row when `(w & mask) == match` (R78). -/
def CmdPattern.covers (p : CmdPattern) (w : CmdWord) : Bool := (w &&& p.mask) == p.fixed

def patternEncU : CmdPattern := ⟨0x2000, 0xFF00⟩
def patternEncL : CmdPattern := ⟨0x2400, 0xFF00⟩
def patternDbegin : CmdPattern := ⟨0x4000, 0xFFFF⟩
def patternDchar : CmdPattern := ⟨0x6000, 0xFF00⟩
def patternDend : CmdPattern := ⟨0x8000, 0xFFFF⟩

/-- The command map of R78, in its order. -/
def commandMap : List CmdPattern :=
  [patternEncU, patternEncL, patternDbegin, patternDchar, patternDend]

/-- The row of R78 that an instruction's word belongs to. -/
def Instr.pattern : Instr → CmdPattern
  | .encU _ => patternEncU
  | .encL _ => patternEncL
  | .dbegin => patternDbegin
  | .dchar _ => patternDchar
  | .dend => patternDend

/-- A command word is well formed (legal) when it matches a row of R78. -/
def wellFormedWord (w : CmdWord) : Bool := commandMap.any (fun p => p.covers w)

end Sys2Proof
end

