-- ==== Sys2Proof/Decode.lean ====
section
/-! DEFINITION. Decoding a command word and encoding a command (spec/30_encoding.md R70 to R79).
The decoder reads the fields of R70 and checks them by R72 to R76; the map of masks and matches of R78 stands in
WellFormed.lean and is not used here, so that the two can be compared. -/

namespace Sys2Proof

/-! The fields of R70. -/

def opField (w : CmdWord) : BitVec 3 := w.extractLsb' 13 3
def varField (w : CmdWord) : BitVec 2 := w.extractLsb' 11 2
def caseField (w : CmdWord) : BitVec 1 := w.extractLsb' 10 1
def rsvField (w : CmdWord) : BitVec 2 := w.extractLsb' 8 2
def dataField (w : CmdWord) : Byte := w.extractLsb' 0 8

/-- Why a word is no command (the groups of R79). The block answers all of them alike (R86).
Where a word falls under several, the first in the order of the constructors is named: DESIGN CHOICE, safe,
nothing reads the name (log 8). -/
inductive Illegal where
  /-- OP is 0b000, 0b101, 0b110 or 0b111 (R72). -/
  | reservedOp
  /-- VAR is not 0b00: a reserved variant of ENC, or VAR set in another command (R75). -/
  | reservedVariant
  /-- RSV is not 0b00 (R76). -/
  | reservedBits
  /-- CASE is 1 in DBEGIN, DCHAR or DEND (R74). -/
  | caseNotZero
  /-- DATA is not 0x00 in DBEGIN or DEND (R73). -/
  | dataNotZero
  deriving DecidableEq, Repr

/-- The checks every command makes on VAR and RSV (R75, R76), then what is left to decide. -/
def checkVarRsv (w : CmdWord) (k : Except Illegal Instr) : Except Illegal Instr :=
  if varField w ≠ 0 then .error .reservedVariant
  else if rsvField w ≠ 0 then .error .reservedBits
  else k

/-- The check of R74 for the commands other than ENC. -/
def checkCase (w : CmdWord) (k : Except Illegal Instr) : Except Illegal Instr :=
  if caseField w ≠ 0 then .error .caseNotZero else k

/-- The check of R73 for DBEGIN and DEND. -/
def checkData (w : CmdWord) (k : Except Illegal Instr) : Except Illegal Instr :=
  if dataField w ≠ 0 then .error .dataNotZero else k

/-- The command of a word, or the reason it has none. Total on all 65536 words (R72 to R79). -/
def decode (w : CmdWord) : Except Illegal Instr :=
  if opField w = 0b001 then
    checkVarRsv w (if caseField w = 0 then .ok (.encU (dataField w)) else .ok (.encL (dataField w)))
  else if opField w = 0b010 then checkVarRsv w (checkCase w (checkData w (.ok .dbegin)))
  else if opField w = 0b011 then checkVarRsv w (checkCase w (.ok (.dchar (dataField w))))
  else if opField w = 0b100 then checkVarRsv w (checkCase w (checkData w (.ok .dend)))
  else .error .reservedOp

/-- A command word from its fields (R70): OP in the top bits, DATA in the low byte. -/
def packCmd (op : BitVec 3) (var : BitVec 2) (cse : BitVec 1) (rsv : BitVec 2) (data : Byte) : CmdWord :=
  (op.setWidth 16 <<< 13) ||| (var.setWidth 16 <<< 11) ||| (cse.setWidth 16 <<< 10) |||
    (rsv.setWidth 16 <<< 8) ||| data.setWidth 16

/-- The word of a command, from the table of R72 with VAR = STANDARD and RSV = 0 (R74 to R76). -/
def encode : Instr → CmdWord
  | .encU b => packCmd 0b001 0b00 0 0b00 b
  | .encL b => packCmd 0b001 0b00 1 0b00 b
  | .dbegin => packCmd 0b010 0b00 0 0b00 0x00
  | .dchar c => packCmd 0b011 0b00 0 0b00 c
  | .dend => packCmd 0b100 0b00 0 0b00 0x00

/-- The command word whose low `nbits` bits are those of `w`, the bits above them 0. Every command is one 16-bit
word (R71), and its bits are numbered as opcode_table.json numbers them. -/
def tableWord (nbits w : Nat) : CmdWord := BitVec.ofNat 16 (w % 2 ^ nbits)

/-- The instruction the decoder reads from a word of the opcode table. -/
def decodeTableWord (nbits w : Nat) : Option Instr := (decode (tableWord nbits w)).toOption

end Sys2Proof
end

