-- ==== Sys2Proof/Machine/State.lean ====
section
/-! DEFINITION. The state of the block (spec/10_state.md R22, R27 to R29; spec/30_encoding.md R89, R90), what its
ports carry at one clock edge, the response record (R80), and the reasons a step can stop. -/

namespace Sys2Proof.Machine

/-- The reasons the machine stops with a fault: none. Nothing traps or aborts (60_exceptions.md R187); every
error is a STATUS in a response and the block goes on. No constructor, so no fault can be raised. Safe: the spec
names no stop (log 15). -/
inductive Fault where
  deriving DecidableEq, Repr

/-- The reasons an instruction has no meaning. -/
inductive Refusal where
  /-- Raised by an arm of `exec` whose instruction has no meaning yet; no arm raises it. Safe. -/
  | notModelled (mnemonic : String)
  deriving DecidableEq, Repr

/-- The outcomes a response can report (30_encoding.md R83). Codes 4 to 7 are reserved and have no name. -/
inductive Status where
  | ok
  | invalidChar
  | oddLength
  | illegalCmd
  deriving DecidableEq, Repr

/-- A response as the record of its fields (00_scope.md R9, 30_encoding.md R80). -/
structure Response where
  out0 : Byte
  out1 : Byte
  nout : BitVec 2
  status : Status
  errpos : EPos
  pend : Bool
  deriving DecidableEq, Repr

/-- What the host drives on the input ports at one rising edge of `clk` (30_encoding.md R89). -/
structure PortSample where
  /-- `rst`, active high. -/
  rst : Bool
  /-- `cmd_valid`: the host offers `cmd`. -/
  cmdValid : Bool
  /-- `cmd`: the command word. -/
  cmd : CmdWord
  deriving DecidableEq, Repr

/-- What happens at one rising edge (30_encoding.md R89, 70_reset_and_hazards.md R210). -/
inductive PortEvent where
  /-- `rst` is 1: the block resets and accepts nothing. -/
  | reset
  /-- `rst` is 0 and no command is offered; the word still stands on the `cmd` port. -/
  | idle (cmdBus : CmdWord)
  /-- The command word is accepted. -/
  | accept (w : CmdWord)
  deriving DecidableEq, Repr

/-- The state of the block and what its ports will carry. The ROMs are constants (10_state.md R22 allows it);
they stand in Operands.lean (log 7). -/
structure State where
  /-- HI, the pending high nibble (10_state.md R27). -/
  hi : Nibble
  /-- HV: HI holds a pending nibble (R27). -/
  hv : Bool
  /-- ERR, the sticky error flag of the transaction (R28). -/
  err : Bool
  /-- EPOS, the error position of the first invalid character (R29). -/
  epos : EPos
  /-- The register that drives `rsp_valid` (30_encoding.md R90). -/
  rspValid : Bool
  /-- The register that drives `rsp` (R90). -/
  rsp : RspWord
  /-- What the host drives at the coming edges, the next one first. The model's own field (log 1). -/
  input : List PortSample
  /-- How many free values have been taken. The model's own field (log 4). -/
  freeIdx : Nat
  deriving DecidableEq, Repr

/-- The block right after reset: the decoder registers 0 (10_state.md R36), `rsp_valid` and `rsp` 0
(70_reset_and_hazards.md R210). The model's own fields: no command is on its way (log 2) and no free value has
been taken (log 4), both DESIGN CHOICE. -/
def State.reset : State where
  hi := 0
  hv := false
  err := false
  epos := 0
  rspValid := false
  rsp := 0
  input := []
  freeIdx := 0

end Sys2Proof.Machine
end

