-- ==== Sys2Proof/Machine/Operands.lean ====
section
/-! DEFINITION. What is computed from DATA: the nibbles of a byte and the alphabet ROMs (spec/40_encoder.md R100,
spec/10_state.md R23 to R25), the fold, the validator and the nibble merger (spec/41_decoder.md R131 to R134,
R141). -/

namespace Sys2Proof.Machine

/-- `b >> 4`, that is `b[7:4]` (40_encoder.md R100). -/
def hiNibble (b : Byte) : Nibble := (b >>> 4).setWidth 4

/-- `b & 0x0F`, that is `b[3:0]` (R100). -/
def loNibble (b : Byte) : Nibble := (b &&& 0x0F).setWidth 4

/-- ROM_U (10_state.md R24). The codes of 'A' to 'F' are ASCII, which R24 takes from general knowledge (log 13). -/
def romU : Vector Byte 16 :=
  #v[0x30, 0x31, 0x32, 0x33, 0x34, 0x35, 0x36, 0x37, 0x38, 0x39, 0x41, 0x42, 0x43, 0x44, 0x45, 0x46]

/-- ROM_L (10_state.md R25). -/
def romL : Vector Byte 16 :=
  #v[0x30, 0x31, 0x32, 0x33, 0x34, 0x35, 0x36, 0x37, 0x38, 0x39, 0x61, 0x62, 0x63, 0x64, 0x65, 0x66]

/-- The ROM that a case selects (40_encoder.md R100). -/
def rom : LetterCase → Vector Byte 16
  | .upper => romU
  | .lower => romL

/-- Entry `i` of the ROM of a case. A nibble always indexes an entry that exists (R103). -/
def romRead (k : LetterCase) (i : Nibble) : Byte := (rom k).get i.toFin

/-- The lowercase fold of one character code (41_decoder.md R131): ASCII 'A' to 'Z' only (log 13). -/
def fold (c : Byte) : Byte := if 0x41 ≤ c ∧ c ≤ 0x5A then c + 0x20 else c

/-- The insertion point of a code: the number of entries of ROM_L below it (R134). -/
def insertionPoint (f : Byte) : EPos := BitVec.ofNat 5 (romL.toList.countP (fun e => decide (e < f)))

/-- What the validator returns (R133): whether the code is a hex digit, its nibble, its insertion point. -/
structure Validation where
  ok : Bool
  v : Nibble
  ip : EPos
  deriving DecidableEq, Repr

/-- The validator on a folded code (R133). -/
def validate (f : Byte) : Validation :=
  if 0x30 ≤ f ∧ f ≤ 0x39 then ⟨true, (f - 0x30).setWidth 4, 0⟩
  else if 0x61 ≤ f ∧ f ≤ 0x66 then ⟨true, (f - 0x61 + 10).setWidth 4, 0⟩
  else ⟨false, 0, insertionPoint f⟩

/-- The nibble merger (R141): the first nibble of a pair gives the high half. -/
def merge (n1 n2 : Nibble) : Byte := (n1.setWidth 8 <<< 4) ||| n2.setWidth 8

end Sys2Proof.Machine
end

