-- ==== Sys2Proof/Machine/Flags.lean ====
section
/-! DEFINITION. The flags and the status of the block: the codes of STATUS, the packing of a response word and the
reading of its fields (spec/30_encoding.md R80 to R88), and the writes of HV with HI and of ERR with EPOS
(spec/10_state.md R27 to R31). -/

namespace Sys2Proof.Machine

/-- The code of an outcome (30_encoding.md R83). -/
def Status.code : Status → BitVec 3
  | .ok => 0
  | .invalidChar => 1
  | .oddLength => 2
  | .illegalCmd => 3

/-- The response word of a record, by the formula of R80. Bits 31 to 27 are 0 (R88). -/
def Response.pack (r : Response) : RspWord :=
  r.out0.setWidth 32 ||| (r.out1.setWidth 32 <<< 8) ||| (r.nout.setWidth 32 <<< 16) |||
    (r.status.code.setWidth 32 <<< 18) ||| (r.errpos.setWidth 32 <<< 21) |||
    ((BitVec.ofBool r.pend).setWidth 32 <<< 26)

/-! The fields of a response word (R80). -/

def rspOut0 (r : RspWord) : Byte := r.extractLsb' 0 8
def rspOut1 (r : RspWord) : Byte := r.extractLsb' 8 8
def rspNout (r : RspWord) : BitVec 2 := r.extractLsb' 16 2
def rspStatus (r : RspWord) : BitVec 3 := r.extractLsb' 18 3
def rspErrpos (r : RspWord) : EPos := r.extractLsb' 21 5
def rspPend (r : RspWord) : Bool := r.getLsbD 26
def rspZero (r : RspWord) : BitVec 5 := r.extractLsb' 27 5

/-- The output elements a response carries: OUT0 when NOUT is at least 1, then OUT1 when NOUT is 2 (R82).
NOUT = 3 is never produced, and a host reading it takes no element from it (log 14). -/
def rspOutputs (r : RspWord) : List Byte :=
  if rspNout r = 1 then [rspOut0 r]
  else if rspNout r = 2 then [rspOut0 r, rspOut1 r]
  else []

/-- Hold a high nibble: HI and HV together (41_decoder.md R142). -/
def holdNibble (v : Nibble) (s : State) : State := { s with hi := v, hv := true }

/-- The pending nibble is used up: HI is 0 whenever HV is 0 (10_state.md R27, R30). -/
def dropNibble (s : State) : State := { s with hi := 0, hv := false }

/-- Latch the first invalid character: ERR and EPOS together (10_state.md R28, R29). -/
def latchError (ip : EPos) (s : State) : State := { s with err := true, epos := ip }

/-- All four decoder registers to their reset values (10_state.md R36), as DBEGIN, DEND and reset do. -/
def clearDecoder (s : State) : State := { s with hi := 0, hv := false, err := false, epos := 0 }

end Sys2Proof.Machine
end

