-- ==== Sys2Proof/Machine/Ops.lean ====
section
/-! DEFINITION. The shared operations: delivering a response (spec/30_encoding.md R90), the answer to an illegal word
(R86), what an edge without a command does (R90, spec/70_reset_and_hazards.md R210), and the input ports (R89).

The block has no trap, no vector and no return (spec/60_exceptions.md R187, R188): `illegal` is what it does in
place of an illegal-instruction exception, and `latchError` and `clearDecoder` (Flags.lean) are its only error
state and the end of it. -/

namespace Sys2Proof.Machine

/-- Put a response into the response register, with `rsp_valid` = 1 (30_encoding.md R90). -/
def respond (r : Response) (s : State) : State := { s with rspValid := true, rsp := r.pack }

/-- A response that carries no output element (R81, R82, R88). -/
def statusResponse (st : Status) (p : EPos) (pend : Bool) : Response :=
  { out0 := 0, out1 := 0, nout := 0, status := st, errpos := p, pend := pend }

/-- The answer to a word that is no command: ILLEGAL_CMD, no decoder register written (R86). -/
def illegal (s : State) : State := respond (statusResponse .illegalCmd 0 s.hv) s

/-- An edge at which `rst` is 1 (70_reset_and_hazards.md R210): the decoder registers and the response registers
are 0. -/
def resetEdge (s : State) : State := { clearDecoder s with rspValid := false, rsp := 0 }

/-- An edge at which nothing is accepted and `rst` is 0 (30_encoding.md R90): `rsp_valid` is 0, the decoder
registers hold (60_exceptions.md R195), and `rsp` holds a free value (log 3). -/
def idleEdge (cmdBus : CmdWord) (s : State) : State :=
  { s with
    rspValid := false
    rsp := Config.idleRsp s.freeIdx s.rsp s.rspValid cmdBus s.hi s.hv s.err s.epos
    freeIdx := s.freeIdx + 1 }

/-- `cmd_ready`: 1 in every cycle in which `rst` is 0, and 0 while `rst` is 1 (R89). -/
def cmdReady (p : PortSample) : Bool := !p.rst

/-- What a sample of the input ports makes the edge do (R89, R210). -/
def portEvent (p : PortSample) : PortEvent :=
  if p.rst then .reset
  else if p.cmdValid && cmdReady p then .accept p.cmd
  else .idle p.cmd

/-- The host offers a command word. -/
def offer (w : CmdWord) : PortSample := { rst := false, cmdValid := true, cmd := w }

/-- The host offers nothing. -/
def noOffer : PortSample := { rst := false, cmdValid := false, cmd := 0 }

/-- What the input ports carry at the next edge. Past the listed samples the host offers nothing: DESIGN CHOICE
(log 2). -/
def nextSample (s : State) : PortSample := s.input.headD noOffer

/-- The edge has passed: its sample is used up. -/
def passEdge (s : State) : State := { s with input := s.input.tail }

/-- Put a sample in front of what the host drives at the coming edges. -/
def present (p : PortSample) (s : State) : State := { s with input := p :: s.input }

end Sys2Proof.Machine
end

