-- ==== Sys2Proof/Machine/Decoder.lean ====
section
/-! DEFINITION. The decoder's commands DBEGIN, DCHAR and DEND (spec/41_decoder.md R140 to R151). -/

namespace Sys2Proof.Machine

/-- DBEGIN (R140): the decoder registers are 0 afterwards, whatever they held. -/
def execDbegin (s : State) : Host.Outcome State Fault Refusal :=
  .next (respond (statusResponse .ok 0 false) (clearDecoder s))

/-- A valid character while no nibble is pending (R142): it gives the high nibble of the next byte. -/
def takeHighNibble (v : Nibble) (s : State) : State :=
  respond (statusResponse .ok 0 true) (holdNibble v s)

/-- A valid character while a nibble is pending (R142): the two make a byte, which the response carries. -/
def takeLowNibble (v : Nibble) (s : State) : State :=
  respond
    { out0 := merge s.hi v
      out1 := 0
      nout := 1
      status := .ok
      errpos := 0
      pend := false } (dropNibble s)

/-- The first invalid character of a transaction (R142, 60_exceptions.md R181): latch its insertion point. A pending
nibble stays pending. -/
def takeInvalid (ip : EPos) (s : State) : State :=
  respond (statusResponse .invalidChar ip s.hv) (latchError ip s)

/-- A character after the first invalid one (R143): nothing is written, the latched error is reported again. -/
def repeatError (s : State) : State := respond (statusResponse .invalidChar s.epos s.hv) s

/-- DCHAR (R142). -/
def execDchar (c : Byte) (s : State) : Host.Outcome State Fault Refusal :=
  if s.err then .next (repeatError s)
  else
    let d := validate (fold c)
    if !d.ok then .next (takeInvalid d.ip s)
    else if s.hv then .next (takeLowNibble d.v s)
    else .next (takeHighNibble d.v s)

/-- What DEND reports (R150): the latched error before the odd length (R151). -/
def endOfTransaction (s : State) : Response :=
  if s.err then statusResponse .invalidChar s.epos false
  else if s.hv then statusResponse .oddLength 0 false
  else statusResponse .ok 0 false

/-- DEND (R150): reports, and the decoder registers are 0 afterwards. -/
def execDend (s : State) : Host.Outcome State Fault Refusal :=
  .next (respond (endOfTransaction s) (clearDecoder s))

end Sys2Proof.Machine
end

