-- ==== Sys2Proof/Machine/Encoder.lean ====
section
/-! DEFINITION. The encoder's commands ENC.U and ENC.L (spec/40_encoder.md R100 to R102). -/

namespace Sys2Proof.Machine

/-- The encode datapath (R100): the two characters of a byte, high nibble first (20_memory.md R52). No decoder
register is written; PEND copies HV. -/
def encodeByte (k : LetterCase) (b : Byte) (s : State) : State :=
  respond
    { out0 := romRead k (hiNibble b)
      out1 := romRead k (loNibble b)
      nout := 2
      status := .ok
      errpos := 0
      pend := s.hv } s

/-- ENC.U (R101). -/
def execEncU (b : Byte) (s : State) : Host.Outcome State Fault Refusal := .next (encodeByte .upper b s)

/-- ENC.L (R102). -/
def execEncL (b : Byte) (s : State) : Host.Outcome State Fault Refusal := .next (encodeByte .lower b s)

end Sys2Proof.Machine
end

