-- ==== Sys2Proof/Machine/Dispatch.lean ====
section
/-! DEFINITION. Which meaning each command has (spec/30_encoding.md R87): one arm per constructor. -/

namespace Sys2Proof.Machine

def exec (i : Instr) (s : State) : Host.Outcome State Fault Refusal :=
  match i with
  | .encU b => Sys2Proof.Machine.execEncU b s
  | .encL b => Sys2Proof.Machine.execEncL b s
  | .dbegin => Sys2Proof.Machine.execDbegin s
  | .dchar c => Sys2Proof.Machine.execDchar c s
  | .dend => Sys2Proof.Machine.execDend s

end Sys2Proof.Machine
end

