-- ==== Sys2Proof/Machine/Step.lean ====
section
/-! DEFINITION. One step of the block: one rising edge of `clk` (spec/30_encoding.md R87, R89). -/

namespace Sys2Proof.Machine

/-- One rising edge. An accepted word that is a command is executed; any other accepted word is answered by R86. -/
def step (s : State) : Host.Outcome State Fault Refusal :=
  match portEvent (nextSample s) with
  | .reset => .next (resetEdge (passEdge s))
  | .idle cmdBus => .next (idleEdge cmdBus (passEdge s))
  | .accept w =>
    match decode w with
    | .ok i => exec i (passEdge s)
    | .error _ => .next (illegal (passEdge s))

/-- The state in which the host offers, at the very next edge, the command word with the given bits, and then
drives what it would have driven (log 9). -/
def State.withFetchWord (s : State) (nbits w : Nat) : State := present (offer (tableWord nbits w)) s

end Sys2Proof.Machine
end

