-- ==== Sys2Proof/Machine/Assembler.lean ====
section
/-! DEFINITION. The assembler's syntax and the pseudo-instructions (spec/30_encoding.md R91, R92): the lines, the words
they stand for, reading a line of text, and the disassembler's print. It is the host's side of the command port:
no step reads it. -/

namespace Sys2Proof.Machine

/-- The ways an operand is written (R91). -/
inductive Operand where
  /-- Hexadecimal, `0xNN`. -/
  | hex (n : Nat)
  | dec (n : Nat)
  /-- A quoted character, standing for its code. -/
  | quoted (c : Char)
  deriving DecidableEq, Repr

/-- The number an operand stands for (R91; a character stands for its code, 00_scope.md R8). The spec gives codes for
ASCII characters only (D2); for any other character the code taken here is its Unicode code point: DESIGN CHOICE
(log 17). A byte or character operand above 0xFF is refused by `Operand.bits`. -/
def Operand.value : Operand → Nat
  | .hex n => n
  | .dec n => n
  | .quoted c => c.toNat

/-- The operand as a value of `bits` bits; none when it does not fit (DESIGN CHOICE, log 10). -/
def Operand.bits (bits : Nat) (o : Operand) : Option (BitVec bits) :=
  if o.value < 2 ^ bits then some (BitVec.ofNat bits o.value) else none

/-- The operand of a pseudo-instruction (R92): a list of bytes, or a string that stands for its character codes. -/
inductive SeqOperand where
  | list (os : List Operand)
  | string (cs : List Char)
  deriving DecidableEq, Repr

def SeqOperand.operands : SeqOperand → List Operand
  | .list os => os
  | .string cs => cs.map .quoted

def SeqOperand.bytes (q : SeqOperand) : Option (List Byte) := q.operands.mapM (Operand.bits 8)

/-- The lines of the syntax: the five commands and `.word` (R91), and the pseudo-instructions (R92). -/
inductive AsmLine where
  | encU (b : Operand)
  | encL (b : Operand)
  | dbegin
  | dchar (c : Operand)
  | dend
  | word (w : Operand)
  | encStrU (q : SeqOperand)
  | encStrL (q : SeqOperand)
  | dstr (cs : List Char)
  deriving DecidableEq, Repr

/-- ENCSTR.U and ENCSTR.L (R92): one ENC per byte, none for no byte. -/
def encStr : LetterCase → List Byte → List Instr
  | .upper, bs => bs.map .encU
  | .lower, bs => bs.map .encL

/-- DSTR (R92): DBEGIN, one DCHAR per character, DEND. -/
def dstr (cs : List Byte) : List Instr := .dbegin :: (cs.map .dchar ++ [.dend])

/-- The words a line stands for (R91, R92); none when an operand does not fit its field. -/
def assemble : AsmLine → Option (List CmdWord)
  | .encU b => (b.bits 8).map fun x => [encode (.encU x)]
  | .encL b => (b.bits 8).map fun x => [encode (.encL x)]
  | .dbegin => some [encode .dbegin]
  | .dchar c => (c.bits 8).map fun x => [encode (.dchar x)]
  | .dend => some [encode .dend]
  | .word w => (w.bits 16).map fun x => [x]
  | .encStrU q => q.bytes.map fun bs => (encStr .upper bs).map encode
  | .encStrL q => q.bytes.map fun bs => (encStr .lower bs).map encode
  | .dstr cs => (SeqOperand.bytes (.string cs)).map fun bs => (dstr bs).map encode

/-- The line a disassembler prints for a word (R91): its row's syntax, or `.word`. The operand is hexadecimal:
DESIGN CHOICE (log 11). -/
def disassemble (w : CmdWord) : AsmLine :=
  match decode w with
  | .ok (.encU b) => .encU (.hex b.toNat)
  | .ok (.encL b) => .encL (.hex b.toNat)
  | .ok .dbegin => .dbegin
  | .ok (.dchar c) => .dchar (.hex c.toNat)
  | .ok .dend => .dend
  | .error _ => .word (.hex w.toNat)

/-! Text (R91). Where R91 does not say how a line is read, log 10 says what the model does. -/

def isBlank (c : Char) : Bool := c == ' ' || c == '\t'

def trim (cs : List Char) : List Char := ((cs.dropWhile isBlank).reverse.dropWhile isBlank).reverse

/-- Cut a line at its `;`, but not at one in a quoted character or a quoted string. -/
def stripComment : Bool → List Char → List Char
  | _, [] => []
  | true, c :: cs => c :: stripComment (c != '"') cs
  | false, '\'' :: c :: '\'' :: cs => '\'' :: c :: '\'' :: stripComment false cs
  | false, c :: cs => if c = ';' then [] else c :: stripComment (c == '"') cs

/-- Cut a list of operands at its commas, but not at one in a quoted character. -/
def splitCommas : List Char → List (List Char)
  | [] => [[]]
  | '\'' :: c :: '\'' :: cs =>
    match splitCommas cs with
    | item :: rest => ('\'' :: c :: '\'' :: item) :: rest
    | [] => [['\'', c, '\'']]
  | c :: cs =>
    if c = ',' then [] :: splitCommas cs
    else
      match splitCommas cs with
      | item :: rest => (c :: item) :: rest
      | [] => [[c]]

/-- The value of a hexadecimal digit of either case: the nibble the block's own validator gives its code
(41_decoder.md R132, R135). -/
def digitValue (c : Char) : Option Nat :=
  let d := validate (fold (BitVec.ofNat 8 c.toNat))
  if c.toNat < 256 ∧ d.ok = true then some d.v.toNat else none

/-- A number of at least one digit of the base, the first digit the most significant. -/
def readNumber (base : Nat) (cs : List Char) : Option Nat :=
  match cs.mapM digitValue with
  | none => none
  | some ds => if ds ≠ [] ∧ ds.all (· < base) then some (Nat.ofDigits base ds.reverse) else none

def readOperand : List Char → Option Operand
  | '0' :: 'x' :: cs => (readNumber 16 cs).map .hex
  | ['\'', c, '\''] => some (.quoted c)
  | cs => (readNumber 10 cs).map .dec

def readString : List Char → Option (List Char)
  | '"' :: cs =>
    if cs.getLast? = some '"' ∧ '"' ∉ cs.dropLast then some cs.dropLast else none
  | _ => none

def readSeqOperand : List Char → Option SeqOperand
  | '[' :: cs =>
    if cs.getLast? = some ']' then
      if trim cs.dropLast = [] then some (.list [])
      else ((splitCommas cs.dropLast).mapM fun item => readOperand (trim item)).map .list
    else none
  | cs => (readString cs).map .string

/-- A line without comment and outer blanks. The operand of `.word` is read in the three forms that R91 gives for a byte
or character operand: DESIGN CHOICE (log 18). -/
def readBody (cs : List Char) : Option AsmLine :=
  let (name, rest) := cs.span (fun c => !isBlank c)
  let operand := trim rest
  if name = "ENC.U".toList then (readOperand operand).map .encU
  else if name = "ENC.L".toList then (readOperand operand).map .encL
  else if name = "DCHAR".toList then (readOperand operand).map .dchar
  else if name = ".word".toList then (readOperand operand).map .word
  else if name = "ENCSTR.U".toList then (readSeqOperand operand).map .encStrU
  else if name = "ENCSTR.L".toList then (readSeqOperand operand).map .encStrL
  else if name = "DSTR".toList then (readString operand).map .dstr
  else if operand ≠ [] then none
  else if name = "DBEGIN".toList then some .dbegin
  else if name = "DEND".toList then some .dend
  else none

/-- The words of one line of text; a line that holds only a comment or blanks stands for none. -/
def assembleText (cs : List Char) : Option (List CmdWord) :=
  let body := trim (stripComment false cs)
  if body = [] then some [] else (readBody body).bind assemble

/-- The character of a nibble, from the uppercase alphabet (10_state.md R24; log 11). -/
def hexDigit (n : Nat) : Char := Char.ofNat (romRead .upper (BitVec.ofNat 4 n)).toNat

/-- `0xNN` with as many digits as asked for. -/
def hexText (digits n : Nat) : List Char :=
  '0' :: 'x' :: ((List.range digits).reverse.map fun i => hexDigit (n / 16 ^ i))

/-- The text a disassembler prints for a word (R91). -/
def printWord (w : CmdWord) : List Char :=
  match decode w with
  | .ok (.encU b) => "ENC.U ".toList ++ hexText 2 b.toNat
  | .ok (.encL b) => "ENC.L ".toList ++ hexText 2 b.toNat
  | .ok .dbegin => "DBEGIN".toList
  | .ok (.dchar c) => "DCHAR ".toList ++ hexText 2 c.toNat
  | .ok .dend => "DEND".toList
  | .error _ => ".word ".toList ++ hexText 4 w.toNat

end Sys2Proof.Machine
end

