-- ==== Sys2Proof/Machine/Sequence.lean ====
section
/-! DEFINITION. The whole-sequence operations (spec/40_encoder.md R110, spec/41_decoder.md R160, R161): a host that drives
samples of the input ports, takes every response (spec/70_reset_and_hazards.md R222), and reads the result off the
responses (R223). -/

namespace Sys2Proof.Machine

/-- Drive the samples, one an edge, and take the response of every edge after which `rsp_valid` is 1. -/
def hostRun : State → List PortSample → Option (State × List RspWord)
  | s, [] => some (s, [])
  | s, p :: ps =>
    match step (present p s) with
    | .next t => (hostRun t ps).map fun r => (r.1, if t.rspValid then t.rsp :: r.2 else r.2)
    | .fault _ => none
    | .refused _ => none

/-- Offer words at consecutive edges. -/
def hostWords (s : State) (ws : List CmdWord) : Option (State × List RspWord) := hostRun s (ws.map offer)

/-- Offer commands at consecutive edges. -/
def hostCommands (s : State) (is : List Instr) : Option (State × List RspWord) := hostWords s (is.map encode)

/-- The encode operation (40_encoder.md R110): the output elements of the responses to ENCSTR, in order. -/
def hostEncode (s : State) (k : LetterCase) (bs : List Byte) : Option (List Byte) :=
  (hostCommands s (encStr k bs)).map fun r => r.2.flatMap rspOutputs

/-- The closed form of encode (R110). -/
def encodeClosed (k : LetterCase) (bs : List Byte) : List Byte :=
  bs.flatMap fun b => [romRead k (hiNibble b), romRead k (loNibble b)]

/-- The result of a decode operation (41_decoder.md R160): bytes, or the failure and its position. -/
inductive DecodeResult where
  | ok (bytes : List Byte)
  | decodeError (kind : Status) (position : EPos)
  deriving DecidableEq, Repr

/-- The bytes of the responses with NOUT = 1 (R160). -/
def decodedBytes (rs : List RspWord) : List Byte := (rs.filter fun r => rspNout r == 1).map rspOut0

/-- The result a host reads off the responses of a decode transaction, the last of which is DEND's (R160). After a
failure the bytes are discarded (70_reset_and_hazards.md R223). DEND reports no other code; a host that sees one has
no result (log 14). -/
def decodeResult (rs : List RspWord) : Option DecodeResult :=
  match rs.getLast? with
  | none => none
  | some r =>
    if rspStatus r = Status.ok.code then some (.ok (decodedBytes rs))
    else if rspStatus r = Status.invalidChar.code then some (.decodeError .invalidChar (rspErrpos r))
    else if rspStatus r = Status.oddLength.code then some (.decodeError .oddLength (rspErrpos r))
    else none

/-- The decode operation (R160): the result of DSTR. -/
def hostDecode (s : State) (cs : List Byte) : Option DecodeResult :=
  (hostCommands s (dstr cs)).bind fun r => decodeResult r.2

/-- The position of the first invalid character, if there is one (R161). -/
def firstInvalid (cs : List Byte) : Option EPos :=
  ((cs.map fun c => validate (fold c)).find? fun d => !d.ok).map fun d => d.ip

/-- Consecutive nibbles two at a time (R161). A last nibble without a partner is dropped: `decodeClosed` never pairs
such a list, and for `sourceDecode` that is log 19. -/
def mergePairs : List Nibble → List Byte
  | n1 :: n2 :: ns => merge n1 n2 :: mergePairs ns
  | _ => []

/-- The closed form of decode (R161). -/
def decodeClosed (cs : List Byte) : DecodeResult :=
  match firstInvalid cs with
  | some p => .decodeError .invalidChar p
  | none =>
    if cs.length % 2 = 1 then .decodeError .oddLength 0
    else .ok (mergePairs (cs.map fun c => (validate (fold c)).v))

/-! The source's five-step algorithm (41_decoder.md R130), on a whole string. -/

/-- Step 2: the place of a character in the lowercase table, or on failure its insertion point (R130, R134). -/
def lookupLower (f : Byte) : Except EPos Nibble :=
  match romL.toList.idxOf? f with
  | some i => .ok (BitVec.ofNat 4 i)
  | none => .error (BitVec.ofNat 5 (romL.toList.countP fun x => x < f))

/-- Steps 1 to 5: normalise the string, look its characters up in order until one fails, pair the nibbles up (R130).
On a string of odd length without an invalid character the source is open (R161, 90_conflicts.md C2,
93_implementation_defined.md U2); there this function drops the last nibble and answers ok: DESIGN CHOICE (log 19). The
block does not: it reports ODD_LENGTH (R150), and no statement speaks of this function there. -/
def sourceDecode (cs : List Byte) : Except EPos (List Byte) := ((cs.map fold).mapM lookupLower).map mergePairs

/-- ASCII letters to upper case (R162), the inverse of the fold on letters. -/
def toUpper (c : Byte) : Byte := if 0x61 ≤ c ∧ c ≤ 0x7A then c - 0x20 else c

/-- The words of a stream that touch the decoder: DBEGIN, DCHAR and DEND (R163). -/
def isDecoderWord (w : CmdWord) : Bool :=
  patternDbegin.covers w || patternDchar.covers w || patternDend.covers w

/-- The words of a stream that are ENC commands (40_encoder.md R111). -/
def isEncWord (w : CmdWord) : Bool := patternEncU.covers w || patternEncL.covers w

end Sys2Proof.Machine
end

