-- ==== Sys2Proof/Safety.lean ====
section
/-! DEFINITION. What the claims call a legal state, a legal response and a safe edge (spec/10_state.md R30, spec/30_encoding.md
R82 to R88). -/

namespace Sys2Proof.Machine

/-- The four decoder registers HI, HV, ERR, EPOS: the record of 10_state.md R22. -/
abbrev decoderRegs (s : State) : Nibble × Bool × Bool × EPos := (s.hi, s.hv, s.err, s.epos)

/-- The decoder registers of the reset state (10_state.md R36). -/
abbrev decoderCleared (s : State) : Prop := decoderRegs s = (0, false, false, 0)

/-- The error positions there are (10_state.md R29). -/
abbrev legalPosition (p : EPos) : Prop := p = 0 ∨ p = 10 ∨ p = 16

/-- The invariants (a), (b) and (c) of 10_state.md R30. -/
abbrev DecoderInv (s : State) : Prop :=
  (s.hv = false → s.hi = 0) ∧ (s.err = false → s.epos = 0) ∧ (s.err = true → legalPosition s.epos)

/-- A response word the block may produce: no reserved STATUS (30_encoding.md R83), no NOUT of 3 (R82), a legal
position, which is 0 unless STATUS is INVALID_CHAR (R85), unused fields 0 (R81, R88). -/
abbrev legalResponse (r : RspWord) : Prop :=
  rspStatus r ≤ 3 ∧ rspNout r ≤ 2 ∧ legalPosition (rspErrpos r) ∧ (rspStatus r ≠ 1 → rspErrpos r = 0) ∧
    (rspNout r ≠ 2 → rspOut1 r = 0) ∧ (rspNout r = 0 → rspOut0 r = 0) ∧ (rspStatus r ≠ 0 → rspNout r = 0) ∧
    rspZero r = 0

/-- An edge is safe when the machine goes on. On this block every edge is. -/
def SafeEdge (s : State) : Prop := ∃ t, step s = .next t

end Sys2Proof.Machine
end

