-- ==== Sys2Proof/Certificates/Slice0/Obligations.lean ====
section
/-! DEFINITION. The statements about the block, for the provers. Each cites the rules of spec/ it formalises.
`step (present p s)` is one clock edge at which the host drives the sample `p` of the input ports in the state `s`;
`offer w` is the sample that offers the command word `w`. -/

open Sys2Proof Sys2Proof.Machine

/-! ## Reset and the ports -/

/-- 10_state.md R36: the reset values of the decoder registers, and the ROM contents, which reset does not touch
(R24, R25). -/
def Obligations.ResetRegistersAndRoms : Prop :=
  State.reset.hi = 0 ∧ State.reset.hv = false ∧ State.reset.err = false ∧ State.reset.epos = 0 ∧
    romU.toList = [0x30, 0x31, 0x32, 0x33, 0x34, 0x35, 0x36, 0x37, 0x38, 0x39, 0x41, 0x42, 0x43, 0x44, 0x45, 0x46] ∧
    romL.toList = [0x30, 0x31, 0x32, 0x33, 0x34, 0x35, 0x36, 0x37, 0x38, 0x39, 0x61, 0x62, 0x63, 0x64, 0x65, 0x66]

/-- 70_reset_and_hazards.md R210: at an edge with `rst` = 1 every register is cleared and nothing is accepted,
whatever the host offers; `cmd_ready` is 0. -/
def Obligations.ResetEdgeClearsAndAcceptsNothing : Prop :=
  ∀ (s : State) (valid : Bool) (w : CmdWord),
    cmdReady ⟨true, valid, w⟩ = false ∧
      step (present ⟨true, valid, w⟩ s) =
        .next { s with hi := 0, hv := false, err := false, epos := 0, rspValid := false, rsp := 0 }

/-- 70_reset_and_hazards.md R213: the initial state, and a reset in the middle of a transaction leaves the decoder
registers as DBEGIN does, but produces no response. -/
def Obligations.ResetAbandonsTransactionAsDbegin : Prop :=
  decoderRegs State.reset = (0, false, false, 0) ∧
    ∀ (s : State) (valid : Bool) (w : CmdWord), ∃ t u,
      step (present ⟨true, valid, w⟩ s) = .next t ∧ step (present (offer 0x4000) s) = .next u ∧
        decoderRegs t = decoderRegs u ∧ t.rspValid = false ∧ u.rspValid = true

/-- 30_encoding.md section 4: when a command is accepted. -/
def Obligations.AcceptedExactlyWhenOfferedAndReady : Prop :=
  ∀ (p : PortSample) (w : CmdWord),
    cmdReady p = !p.rst ∧
      (portEvent p = .accept w ↔ p.cmdValid = true ∧ cmdReady p = true ∧ p.rst = false ∧ p.cmd = w)

/-- A step runs the decoded command: the state given to `exec` is the state after the edge's sample is used up.
The second part is the form in which the host asks for it (log 9 is the model's choice of `withFetchWord`). -/
def Obligations.StepRunsTheDecodedCommand : Prop :=
  (∀ (s : State) (p : PortSample) (ps : List PortSample) (i : Instr),
      s.input = p :: ps → p.rst = false → p.cmdValid = true → decode p.cmd = .ok i →
        step s = exec i { s with input := ps }) ∧
    ∀ (s : State) (i : Instr), step (s.withFetchWord 16 (encode i).toNat) = exec i s

/-- 30_encoding.md R87: the dispatch by mask and match, and that nothing else goes into the step than the decoder
registers and the word. -/
def Obligations.StepIsTheDispatchByMaskAndMatch : Prop :=
  (∀ (s : State) (w : CmdWord),
      step (present (offer w) s) =
        if w &&& 0xFF00 = 0x2000 then exec (.encU (w.setWidth 8)) s
        else if w &&& 0xFF00 = 0x2400 then exec (.encL (w.setWidth 8)) s
        else if w = 0x4000 then exec .dbegin s
        else if w &&& 0xFF00 = 0x6000 then exec (.dchar (w.setWidth 8)) s
        else if w = 0x8000 then exec .dend s
        else .next { s with rspValid := true, rsp := Response.pack ⟨0, 0, 0, .illegalCmd, 0, s.hv⟩ }) ∧
    ∀ (s s' : State) (w : CmdWord), decoderRegs s = decoderRegs s' → ∃ t t',
      step (present (offer w) s) = .next t ∧ step (present (offer w) s') = .next t' ∧
        decoderRegs t = decoderRegs t' ∧ t.rspValid = true ∧ t'.rspValid = true ∧ t.rsp = t'.rsp

/-- No edge stops the machine: no command can stall, wait, hang or trap (R187, R225). -/
def Obligations.EveryEdgeGoesOn : Prop := ∀ s : State, SafeEdge s

/-- An edge without a command: `rsp_valid` is 0, the decoder registers hold (R90, R195). What `rsp` holds then is a
free value (log 3), of which nothing is said; that the host offers nothing past the listed samples is the model's
choice (log 2). -/
def Obligations.IdleEdgeHoldsTheDecoder : Prop :=
  (∀ (s : State) (w : CmdWord), ∃ v,
      step (present ⟨false, false, w⟩ s) = .next { s with rspValid := false, rsp := v, freeIdx := s.freeIdx + 1 }) ∧
    ∀ s : State, ∃ v,
      step { s with input := [] } =
        .next { s with input := [], rspValid := false, rsp := v, freeIdx := s.freeIdx + 1 }

/-- `rsp_valid` is 1 after an edge exactly when a command was accepted at it; reset clears `rsp` (R90). -/
def Obligations.RspValidExactlyAfterAcceptance : Prop :=
  ∀ (s : State) (p : PortSample), ∃ t, step (present p s) = .next t ∧
    (t.rspValid = true ↔ p.rst = false ∧ p.cmdValid = true) ∧ (p.rst = true → t.rsp = 0)

/-! ## Command and response words -/

/-- No bit of a command is dropped: decoding an encoded command gives it back, with every operand. -/
def Obligations.DecodeOfEncode : Prop := ∀ i : Instr, decode (encode i) = .ok i

/-- Every command has one word. -/
def Obligations.EncodeOfDecode : Prop := ∀ (w : CmdWord) (i : Instr), decode w = .ok i → encode i = w

/-- Words written out from 30_encoding.md R70, R72 and R78, field by field. -/
def Obligations.SampleWordsDecode : Prop :=
  decode 0b0010000000111010 = .ok (.encU 0x3A) ∧ decode 0b0010010011000011 = .ok (.encL 0xC3) ∧
    decode 0b0100000000000000 = .ok .dbegin ∧ decode 0b0110000001000001 = .ok (.dchar 0x41) ∧
    decode 0b1000000000000000 = .ok .dend ∧ decode 0b0000000000000000 = .error .reservedOp ∧
    decode 0b0010100000000000 = .error .reservedVariant ∧ decode 0b0010000100000000 = .error .reservedBits ∧
    decode 0b0110010001000001 = .error .caseNotZero ∧ decode 0b0100000000000001 = .error .dataNotZero

/-- 30_encoding.md R78: the legal words are exactly those of the five patterns, DATA is the free field, no word
matches two rows, there are 770 of them, and ENC with VAR other than 0 is illegal. -/
def Obligations.LegalWordsAreTheFivePatterns : Prop :=
  (∀ (w : CmdWord) (d : Byte), decode w = .ok (.encU d) ↔ w &&& 0xFF00 = 0x2000 ∧ d = w.setWidth 8) ∧
    (∀ (w : CmdWord) (d : Byte), decode w = .ok (.encL d) ↔ w &&& 0xFF00 = 0x2400 ∧ d = w.setWidth 8) ∧
    (∀ w : CmdWord, decode w = .ok .dbegin ↔ w &&& 0xFFFF = 0x4000) ∧
    (∀ (w : CmdWord) (d : Byte), decode w = .ok (.dchar d) ↔ w &&& 0xFF00 = 0x6000 ∧ d = w.setWidth 8) ∧
    (∀ w : CmdWord, decode w = .ok .dend ↔ w &&& 0xFFFF = 0x8000) ∧
    (∀ w : CmdWord, commandMap.countP (fun p => p.covers w) ≤ 1) ∧
    (∃ l : List CmdWord, l.Nodup ∧ l.length = 770 ∧ ∀ w, w ∈ l ↔ ∃ i, decode w = .ok i) ∧
    ∀ w : CmdWord, opField w = 0b001 → varField w ≠ 0 → ∃ e, decode w = .error e

/-- 30_encoding.md R79: the groups of the illegal words. -/
def Obligations.IllegalWordsAreTheReservedGroups : Prop :=
  ∀ w : CmdWord,
    (∃ e, decode w = .error e) ↔
      (opField w = 0b000 ∨ opField w = 0b101 ∨ opField w = 0b110 ∨ opField w = 0b111) ∨
        (opField w = 0b001 ∧ (varField w ≠ 0 ∨ rsvField w ≠ 0)) ∨
        (opField w = 0b011 ∧ (varField w ≠ 0 ∨ caseField w ≠ 0 ∨ rsvField w ≠ 0)) ∨
        ((opField w = 0b010 ∨ opField w = 0b100) ∧ w &&& 0x1FFF ≠ 0)

/-- 30_encoding.md R86, 60_exceptions.md R183: an illegal word changes no decoder register and is answered with
ILLEGAL_CMD, ERRPOS = 0 and PEND = HV. -/
def Obligations.IllegalWordIsAnsweredAndChangesNothing : Prop :=
  (∀ (s : State) (w : CmdWord) (e : Illegal), decode w = .error e →
      step (present (offer w) s) =
        .next { s with rspValid := true, rsp := Response.pack ⟨0, 0, 0, .illegalCmd, 0, s.hv⟩ }) ∧
    (∀ s : State, Response.pack ⟨0, 0, 0, .illegalCmd, 0, s.hv⟩ = if s.hv then 0x040C0000 else 0x000C0000) ∧
    step (present (offer 0x0000) State.reset) = .next { State.reset with rspValid := true, rsp := 0x000C0000 }

/-- 30_encoding.md R80: the layout of a response word, as its formula and as its fields, and every accepted word has
one. -/
def Obligations.ResponseWordLayout : Prop :=
  (∀ r : Response,
      r.pack =
          (r.out0.setWidth 32 ||| (r.out1.setWidth 32 <<< 8) ||| (r.nout.setWidth 32 <<< 16) |||
            (r.status.code.setWidth 32 <<< 18) ||| (r.errpos.setWidth 32 <<< 21) |||
            ((BitVec.ofBool r.pend).setWidth 32 <<< 26)) ∧
        rspOut0 r.pack = r.out0 ∧ rspOut1 r.pack = r.out1 ∧ rspNout r.pack = r.nout ∧
        rspStatus r.pack = r.status.code ∧ rspErrpos r.pack = r.errpos ∧ rspPend r.pack = r.pend ∧
        rspZero r.pack = 0) ∧
    ∀ (s : State) (w : CmdWord), ∃ (t : State) (r : Response),
      step (present (offer w) s) = .next t ∧ t.rspValid = true ∧ t.rsp = r.pack

/-- 30_encoding.md R81, R82: the output elements of every response, and what a host appends. -/
def Obligations.OutputElementsByCommand : Prop :=
  ∀ (s : State) (w : CmdWord), ∃ t, step (present (offer w) s) = .next t ∧
    if w &&& 0xFF00 = 0x2000 ∨ w &&& 0xFF00 = 0x2400 then
      rspNout t.rsp = 2 ∧ rspOutputs t.rsp = [rspOut0 t.rsp, rspOut1 t.rsp] ∧
        rspOut0 t.rsp = romRead (if w &&& 0xFF00 = 0x2000 then .upper else .lower) (w.extractLsb' 4 4) ∧
        rspOut1 t.rsp = romRead (if w &&& 0xFF00 = 0x2000 then .upper else .lower) (w.extractLsb' 0 4)
    else if w &&& 0xFF00 = 0x6000 ∧ s.err = false ∧ s.hv = true ∧ (validate (fold (w.setWidth 8))).ok = true then
      rspNout t.rsp = 1 ∧ rspOutputs t.rsp = [rspOut0 t.rsp] ∧
        rspOut0 t.rsp = merge s.hi (validate (fold (w.setWidth 8))).v ∧ rspOut1 t.rsp = 0
    else rspNout t.rsp = 0 ∧ rspOutputs t.rsp = [] ∧ rspOut0 t.rsp = 0 ∧ rspOut1 t.rsp = 0

/-- Which STATUS and ERRPOS every response carries (R180 to R184). For DEND they are the registers before the command:
R83 and R85 read otherwise, and the model follows R150 (log 5). -/
def Obligations.StatusAndPositionByCommand : Prop :=
  ∀ (s : State) (w : CmdWord), ∃ t, step (present (offer w) s) = .next t ∧
    rspStatus t.rsp =
        (if wellFormedWord w = false then 3
          else if w &&& 0xFF00 = 0x6000 then (if t.err then 1 else 0)
          else if w = 0x8000 then (if s.err then 1 else if s.hv then 2 else 0)
          else 0) ∧
      rspErrpos t.rsp =
        (if w &&& 0xFF00 = 0x6000 then (if t.err then t.epos else 0)
          else if w = 0x8000 then (if s.err then s.epos else 0)
          else 0)

/-- 30_encoding.md R84: PEND is HV after the command, in every response; ENC and illegal words do not change HV. -/
def Obligations.PendIsHvAfterTheCommand : Prop :=
  ∀ (s : State) (w : CmdWord), ∃ t, step (present (offer w) s) = .next t ∧ t.rspValid = true ∧
    rspPend t.rsp = t.hv ∧ (isEncWord w = true ∨ wellFormedWord w = false → t.hv = s.hv)

/-- From a state that meets the invariants of R30, no reserved STATUS, NOUT or ERRPOS value is produced, and the
fields a response does not use are 0 (93_implementation_defined.md V2 to V5). -/
def Obligations.EveryResponseIsLegal : Prop :=
  ∀ (s : State) (w : CmdWord), DecoderInv s → ∃ t, step (present (offer w) s) = .next t ∧ t.rspValid = true ∧
    legalResponse t.rsp

/-- 60_exceptions.md R184. -/
def Obligations.EncAndDbeginNeverReportAnError : Prop :=
  ∀ s : State,
    (∀ b : Byte, ∃ t, exec (.encU b) s = .next t ∧ rspStatus t.rsp = Status.ok.code) ∧
      (∀ b : Byte, ∃ t, exec (.encL b) s = .next t ∧ rspStatus t.rsp = Status.ok.code) ∧
      ∃ t, exec .dbegin s = .next t ∧ rspStatus t.rsp = Status.ok.code

/-! ## The encoder -/

/-- 10_state.md R24, R25: the ROM contents, by the tables and by the closed forms. -/
def Obligations.RomContents : Prop :=
  romU.toList = [0x30, 0x31, 0x32, 0x33, 0x34, 0x35, 0x36, 0x37, 0x38, 0x39, 0x41, 0x42, 0x43, 0x44, 0x45, 0x46] ∧
    romL.toList = [0x30, 0x31, 0x32, 0x33, 0x34, 0x35, 0x36, 0x37, 0x38, 0x39, 0x61, 0x62, 0x63, 0x64, 0x65, 0x66] ∧
    (∀ i : Nibble, romRead .upper i = if i ≤ 9 then 0x30 + i.setWidth 8 else 0x41 + (i.setWidth 8 - 10)) ∧
    ∀ i : Nibble, romRead .lower i = if i ≤ 9 then 0x30 + i.setWidth 8 else 0x61 + (i.setWidth 8 - 10)

/-- 10_state.md R26: each ROM is strictly increasing, and its 16 codes are distinct. -/
def Obligations.RomsStrictlyIncrease : Prop :=
  (∀ (k : LetterCase) (i : Nibble), i < 15 → romRead k i < romRead k (i + 1)) ∧
    ∀ k : LetterCase, (rom k).toList.Nodup ∧ (rom k).toList.length = 16

/-- 40_encoder.md R100: the encode datapath of both commands, and that no state field but the response is written. -/
def Obligations.EncodeDatapath : Prop :=
  ∀ (b : Byte) (s : State),
    exec (.encU b) s =
        .next { s with
          rspValid := true
          rsp := Response.pack
            ⟨romU.get (b.extractLsb' 4 4).toFin, romU.get (b.extractLsb' 0 4).toFin, 2, .ok, 0, s.hv⟩ } ∧
      exec (.encL b) s =
        .next { s with
          rspValid := true
          rsp := Response.pack
            ⟨romL.get (b.extractLsb' 4 4).toFin, romL.get (b.extractLsb' 0 4).toFin, 2, .ok, 0, s.hv⟩ }

/-- 40_encoder.md R101: ENC.U by its words: fields of the response, registers kept, corner cases, example. -/
def Obligations.EncUWord : Prop :=
  (∀ (s : State) (w : CmdWord), w &&& 0xFF00 = 0x2000 → ∃ t, step (present (offer w) s) = .next t ∧
      rspOut0 t.rsp = romRead .upper (w.extractLsb' 4 4) ∧ rspOut1 t.rsp = romRead .upper (w.extractLsb' 0 4) ∧
      rspNout t.rsp = 2 ∧ rspStatus t.rsp = 0 ∧ rspErrpos t.rsp = 0 ∧ rspPend t.rsp = s.hv ∧
      decoderRegs t = decoderRegs s) ∧
    (∀ s : State, ∃ t0 t1 t2 t3,
      exec (.encU 0x00) s = .next t0 ∧ rspOutputs t0.rsp = [0x30, 0x30] ∧
      exec (.encU 0xFF) s = .next t1 ∧ rspOutputs t1.rsp = [0x46, 0x46] ∧
      exec (.encU 0x0A) s = .next t2 ∧ rspOutputs t2.rsp = [0x30, 0x41] ∧
      exec (.encU 0xA0) s = .next t3 ∧ rspOutputs t3.rsp = [0x41, 0x30]) ∧
    step (present (offer 0x203A) State.reset) = .next { State.reset with rspValid := true, rsp := 0x00024133 }

/-- 40_encoder.md R102: ENC.L by its words; a byte of two digit nibbles gives what ENC.U gives. -/
def Obligations.EncLWord : Prop :=
  (∀ (s : State) (w : CmdWord), w &&& 0xFF00 = 0x2400 → ∃ t, step (present (offer w) s) = .next t ∧
      rspOut0 t.rsp = romRead .lower (w.extractLsb' 4 4) ∧ rspOut1 t.rsp = romRead .lower (w.extractLsb' 0 4) ∧
      rspNout t.rsp = 2 ∧ rspStatus t.rsp = 0 ∧ rspErrpos t.rsp = 0 ∧ rspPend t.rsp = s.hv ∧
      decoderRegs t = decoderRegs s) ∧
    (∀ s : State, ∃ t0 t1 t2,
      exec (.encL 0x00) s = .next t0 ∧ rspOutputs t0.rsp = [0x30, 0x30] ∧
      exec (.encL 0xFF) s = .next t1 ∧ rspOutputs t1.rsp = [0x66, 0x66] ∧
      exec (.encL 0x0A) s = .next t2 ∧ rspOutputs t2.rsp = [0x30, 0x61]) ∧
    (∀ (s : State) (b : Byte), hiNibble b ≤ 9 → loNibble b ≤ 9 → exec (.encL b) s = exec (.encU b) s) ∧
    step (present (offer 0x243A) State.reset) = .next { State.reset with rspValid := true, rsp := 0x00026133 }

/-- 40_encoder.md R103: the nibbles of a byte index entries that exist, and make the byte again. -/
def Obligations.NibbleSplitLosesNothing : Prop :=
  ∀ b : Byte,
    (b >>> 4).toNat ≤ 15 ∧ (b &&& 0x0F).toNat ≤ 15 ∧ (hiNibble b).toNat = (b >>> 4).toNat ∧
      (loNibble b).toNat = (b &&& 0x0F).toNat ∧ ((b >>> 4) <<< 4) ||| (b &&& 0x0F) = b

/-- 40_encoder.md R110: the encode operation, in any block state, is its closed form; of nothing it is nothing. -/
def Obligations.EncodeOperationIsItsClosedForm : Prop :=
  (∀ (s : State) (k : LetterCase) (bs : List Byte),
      hostEncode s k bs = some (bs.flatMap fun b => [(rom k).get (hiNibble b).toFin, (rom k).get (loNibble b).toFin])) ∧
    ∀ (s : State) (k : LetterCase), hostEncode s k [] = some [] ∧ hostCommands s (encStr k []) = some (s, [])

/-- Laws (a), (b) and (d) of 40_encoder.md R111. -/
def Obligations.EncodeLengthAlphabetAndFrame : Prop :=
  ∀ (s : State) (k : LetterCase) (bs : List Byte), ∃ t rs out,
    hostCommands s (encStr k bs) = some (t, rs) ∧ hostEncode s k bs = some out ∧
      out.length = 2 * bs.length ∧ (∀ c ∈ out, c ∈ (rom k).toList) ∧ decoderRegs t = decoderRegs s

/-- Law (c) of 40_encoder.md R111: what the ENC words of any command stream give depends on those words alone. -/
def Obligations.EncOutputsIgnoreOtherCommands : Prop :=
  ∀ (s : State) (ws : List CmdWord), ∃ t rs, hostWords s ws = some (t, rs) ∧
    (rs.filter fun r => rspNout r == 2).flatMap rspOutputs =
      (ws.filter isEncWord).flatMap fun w =>
        [romRead (if caseField w = 0 then .upper else .lower) (hiNibble (dataField w)),
          romRead (if caseField w = 0 then .upper else .lower) (loNibble (dataField w))]

/-- 40_encoder.md R112: the source's encode vectors. -/
def Obligations.EncodeVectorsOfTheSource : Prop :=
  ∀ s : State,
    hostEncode s .upper [0x30, 0x31, 0x32, 0x33, 0x34, 0x35, 0x36, 0x37, 0x38, 0x39] =
        some ("30313233343536373839".toList.map fun c => BitVec.ofNat 8 c.toNat) ∧
      hostEncode s .upper ("abcdefghijklnmopqrstuvwxyz".toList.map fun c => BitVec.ofNat 8 c.toNat) =
        some ("6162636465666768696A6B6C6E6D6F707172737475767778797A".toList.map fun c => BitVec.ofNat 8 c.toNat) ∧
      hostEncode s .upper [] = some [] ∧
      ∀ bs cs : List Byte, ∃ out out',
        hostEncode s .upper bs = some out ∧ hostEncode s .upper cs = some out' ∧
          hostEncode s .upper (bs ++ 0x0A :: cs) = some (out ++ [0x30, 0x41] ++ out')

/-! ## The validator and the merger -/

/-- 41_decoder.md R131: the fold, and where it matters. -/
def Obligations.FoldLowersAsciiLetters : Prop :=
  (∀ c : Byte, (fold c).toNat = if 0x41 ≤ c.toNat ∧ c.toNat ≤ 0x5A then c.toNat + 0x20 else c.toNat) ∧
    (∀ c : Byte, fold (fold c) = fold c) ∧ fold 0x47 = 0x67 ∧ insertionPoint (fold 0x47) = 16 ∧
    insertionPoint 0x47 = 10 ∧
    ∀ cs : List Byte, (cs.map fold).map validate = cs.map fun c => validate (fold c)

/-- 41_decoder.md R132, R133: the valid codes are the entries of ROM_L, with their index; 16 folded codes and 22 raw
ones are valid. -/
def Obligations.ValidatorAcceptsRomLEntries : Prop :=
  (∀ f : Byte, (validate f).ok = true ↔ f ∈ romL.toList) ∧
    (∀ f : Byte, 0x30 ≤ f → f ≤ 0x39 → validate f = ⟨true, (f - 0x30).setWidth 4, 0⟩) ∧
    (∀ f : Byte, 0x61 ≤ f → f ≤ 0x66 → validate f = ⟨true, (f - 0x61 + 10).setWidth 4, 0⟩) ∧
    (∀ f : Byte, (validate f).ok = true → romRead .lower (validate f).v = f) ∧
    (∀ f : Byte, (validate f).ok = false → validate f = ⟨false, 0, insertionPoint f⟩) ∧
    (List.range 256).countP (fun n => (validate (BitVec.ofNat 8 n)).ok) = 16 ∧
    (List.range 256).countP (fun n => (validate (fold (BitVec.ofNat 8 n))).ok) = 22 ∧
    ∀ c : Byte, (validate (fold c)).ok = true ↔
      (0x30 ≤ c ∧ c ≤ 0x39) ∨ (0x41 ≤ c ∧ c ≤ 0x46) ∨ (0x61 ≤ c ∧ c ≤ 0x66)

/-- 41_decoder.md R134: the insertion point as a count, by ranges, as the one place where a search can end, and by
raw code. -/
def Obligations.InsertionPointByRanges : Prop :=
  (∀ f : Byte, (insertionPoint f).toNat = (Finset.univ.filter fun i : Fin 16 => romL.get i < f).card) ∧
    (∀ f : Byte, (f < 0x30 → insertionPoint f = 0) ∧ (0x3A ≤ f → f ≤ 0x60 → insertionPoint f = 10) ∧
      (0x67 ≤ f → insertionPoint f = 16)) ∧
    (∀ (f : Byte) (p : Nat), p ≤ 16 → (∀ i : Fin 16, i.val < p → romL.get i < f) →
      (∀ i : Fin 16, p ≤ i.val → f < romL.get i) → (insertionPoint f).toNat = p) ∧
    ∀ c : Byte,
      (c ≤ 0x2F → insertionPoint (fold c) = 0) ∧ (0x3A ≤ c → c ≤ 0x40 → insertionPoint (fold c) = 10) ∧
        (0x47 ≤ c → c ≤ 0x5A → insertionPoint (fold c) = 16) ∧
        (0x5B ≤ c → c ≤ 0x60 → insertionPoint (fold c) = 10) ∧ (0x67 ≤ c → insertionPoint (fold c) = 16)

/-- 41_decoder.md R135: the case of a letter does not matter to the validator. -/
def Obligations.ValidatorIgnoresCase : Prop :=
  (∀ c : Byte, validate (fold c) =
      validate (fold (if 0x41 ≤ c ∧ c ≤ 0x5A then c + 0x20 else if 0x61 ≤ c ∧ c ≤ 0x7A then c - 0x20 else c))) ∧
    (validate (fold 0x41)).v = 10 ∧ (validate (fold 0x61)).v = 10 ∧ (validate (fold 0x46)).v = 15 ∧
    (validate (fold 0x66)).v = 15

/-- 41_decoder.md R141: the merger puts the first nibble on top, loses nothing, and inverts the split of R103. -/
def Obligations.MergeInvertsTheSplit : Prop :=
  (∀ n1 n2 : Nibble, (merge n1 n2).toNat = n1.toNat * 16 + n2.toNat ∧
      (merge n1 n2).extractLsb' 4 4 = n1 ∧ (merge n1 n2).extractLsb' 0 4 = n2) ∧
    (∀ b : Byte, merge (hiNibble b) (loNibble b) = b) ∧
    Function.Bijective (fun p : Nibble × Nibble => merge p.1 p.2)

/-! ## The decoder's commands -/

/-- 41_decoder.md R140: DBEGIN. -/
def Obligations.DbeginResult : Prop :=
  (∀ w : CmdWord, decode w = .ok .dbegin ↔ w = 0x4000) ∧
    (∀ s : State,
      exec .dbegin s =
        .next { s with hi := 0, hv := false, err := false, epos := 0, rspValid := true, rsp := 0x00000000 }) ∧
    ∀ s : State, decoderCleared s → ∃ t, exec .dbegin s = .next t ∧ decoderRegs t = decoderRegs s

/-- 41_decoder.md R142: DCHAR in its four cases, on every state; then its corner cases and its example. -/
def Obligations.DcharResult : Prop :=
  (∀ (s : State) (c : Byte),
      exec (.dchar c) s =
        if s.err = true then
          .next { s with rspValid := true, rsp := Response.pack ⟨0, 0, 0, .invalidChar, s.epos, s.hv⟩ }
        else if (validate (fold c)).ok = false then
          .next { s with
            err := true
            epos := (validate (fold c)).ip
            rspValid := true
            rsp := Response.pack ⟨0, 0, 0, .invalidChar, (validate (fold c)).ip, s.hv⟩ }
        else if s.hv = false then
          .next { s with
            hi := (validate (fold c)).v
            hv := true
            rspValid := true
            rsp := Response.pack ⟨0, 0, 0, .ok, 0, true⟩ }
        else
          .next { s with
            hi := 0
            hv := false
            rspValid := true
            rsp := Response.pack ⟨merge s.hi (validate (fold c)).v, 0, 1, .ok, 0, false⟩ }) ∧
    (∀ (w : CmdWord) (c : Byte), decode w = .ok (.dchar c) ↔ w &&& 0xFF00 = 0x6000 ∧ c = w.setWidth 8) ∧
    (∀ c : Byte, c = 0x0A ∨ c = 0x20 ∨ c = 0x00 → (validate (fold c)).ok = false ∧ (validate (fold c)).ip = 0) ∧
    (validate (fold 0xFF)).ok = false ∧ (validate (fold 0xFF)).ip = 16 ∧
    exec (.dchar 0x41) State.reset =
      .next { State.reset with hi := 10, hv := true, rspValid := true, rsp := 0x04000000 } ∧
    exec (.dchar 0x66) { State.reset with hi := 10, hv := true, rspValid := true, rsp := 0x04000000 } =
      .next { State.reset with rspValid := true, rsp := 0x000100AF }

/-- 41_decoder.md R143: while ERR is 1, no run of characters writes a register, and each is answered with the latched
position; ENC and illegal words neither read nor change ERR. -/
def Obligations.StickyErrorIgnoresCharacters : Prop :=
  (∀ (s : State) (cs : List Byte), s.err = true → ∃ t rs, hostCommands s (cs.map .dchar) = some (t, rs) ∧
      decoderRegs t = decoderRegs s ∧ rs.length = cs.length ∧
      ∀ r ∈ rs, rspStatus r = Status.invalidChar.code ∧ rspErrpos r = s.epos ∧ rspNout r = 0) ∧
    ∀ (s : State) (w : CmdWord) (e : Bool), isEncWord w = true ∨ wellFormedWord w = false → ∃ t u,
      step (present (offer w) s) = .next t ∧ step (present (offer w) { s with err := e }) = .next u ∧
        t.err = s.err ∧ u.err = e ∧ t.rsp = u.rsp

/-- 41_decoder.md R150: DEND. -/
def Obligations.DendResult : Prop :=
  (∀ w : CmdWord, decode w = .ok .dend ↔ w = 0x8000) ∧
    (∀ s : State,
      exec .dend s =
        .next { s with
          hi := 0
          hv := false
          err := false
          epos := 0
          rspValid := true
          rsp := Response.pack
            (if s.err = true then ⟨0, 0, 0, .invalidChar, s.epos, false⟩
              else if s.hv = true then ⟨0, 0, 0, .oddLength, 0, false⟩
              else ⟨0, 0, 0, .ok, 0, false⟩) }) ∧
    (∀ s : State, hostDecode s [] = some (.ok [])) ∧
    (∃ t, exec .dend State.reset = .next t ∧ t.rsp = 0x00000000) ∧
    ∀ s : State, ∃ t r1 r2, hostWords s [0x4000, 0x6061, 0x8000] = some (t, [r1, r2, 0x00080000])

/-- 41_decoder.md R151: INVALID_CHAR before ODD_LENGTH at DEND, on every state and for every string of odd length with
an invalid character; the source's vector of seven characters. -/
def Obligations.InvalidCharBeforeOddLength : Prop :=
  (∀ s : State, ∃ t, exec .dend { s with err := true, hv := true } = .next t ∧
      rspStatus t.rsp = Status.invalidChar.code ∧ rspErrpos t.rsp = s.epos) ∧
    (∀ (s : State) (cs : List Byte) (p : EPos), cs.length % 2 = 1 → firstInvalid cs = some p →
      hostDecode s cs = some (.decodeError .invalidChar p)) ∧
    ∀ s : State, hostDecode s [0x41, 0x46, 0x47, 0x48, 0x48, 0x46, 0x4A] = some (.decodeError .invalidChar 16)

/-- 41_decoder.md R144, R145: the failure is reported by the DCHAR that carries the first invalid character, by
every later DCHAR and by the DEND, and the index of that DCHAR is the character's index; what is recorded and reported
is R181. -/
def Obligations.FailureReportedFromTheFirstInvalidCharacter : Prop :=
  ∀ (s : State) (pre post : List Byte) (c : Byte),
    (∀ x ∈ pre, (validate (fold x)).ok = true) → (validate (fold c)).ok = false →
      (∃ u us, hostCommands s (.dbegin :: (pre ++ [c]).map .dchar) = some (u, us) ∧ u.err = true ∧
        u.epos = insertionPoint (fold c)) ∧
      ∃ t r0 rp rc rq re,
        hostCommands s (dstr (pre ++ c :: post)) = some (t, r0 :: (rp ++ rc :: rq) ++ [re]) ∧
          rp.length = pre.length ∧ rq.length = post.length ∧
          (∀ r ∈ rp, rspStatus r = Status.ok.code) ∧
          (∀ r ∈ rc :: rq ++ [re], rspStatus r = Status.invalidChar.code ∧ rspErrpos r = insertionPoint (fold c)) ∧
          (rp ++ rc :: rq).findIdx (fun r => rspStatus r == Status.invalidChar.code) = pre.length

/-! ## Whole sequences -/

/-- 41_decoder.md R160, R161: the decode operation is its closed form, for every string and every block state, and it
is the source's five-step algorithm (R130) but for strings of odd length without an invalid character. -/
def Obligations.DecodeOperationIsItsClosedForm : Prop :=
  (∀ (s : State) (cs : List Byte),
      hostDecode s cs =
        some
          (match (cs.map fun c => validate (fold c)).find? (fun d => !d.ok) with
          | some d => .decodeError .invalidChar d.ip
          | none =>
            if cs.length % 2 = 1 then .decodeError .oddLength 0
            else .ok (mergePairs (cs.map fun c => (validate (fold c)).v)))) ∧
    ∀ (s : State) (cs : List Byte), cs.length % 2 = 0 ∨ (∃ c ∈ cs, (validate (fold c)).ok = false) →
      hostDecode s cs =
        some
          (match sourceDecode cs with
          | .ok bs => .ok bs
          | .error p => .decodeError .invalidChar p)

/-- Law (a) of 41_decoder.md R162: decoding an encoding gives the bytes back, in either case and any states. -/
def Obligations.DecodeInvertsEncode : Prop :=
  ∀ (s s' : State) (k : LetterCase) (bs : List Byte),
    (hostEncode s k bs).bind (hostDecode s') = some (.ok bs)

/-- Laws (b), (d) and (f) of 41_decoder.md R162. -/
def Obligations.DecodeIgnoresCaseAndState : Prop :=
  ∀ (s s' : State) (cs : List Byte),
    hostDecode s cs = hostDecode s' cs ∧ hostDecode s (cs.map toUpper) = hostDecode s cs ∧
      hostDecode s (cs.map fold) = hostDecode s cs ∧
      ∀ bs, hostDecode s cs = some (.ok bs) → bs.length = cs.length / 2 ∧ cs.length % 2 = 0

/-- ENC commands and illegal words inside a stream do not affect the decoder (R163): its registers, the bytes it
emits and the responses to its commands are those of the stream without them. -/
def Obligations.OtherWordsDoNotTouchTheDecoder : Prop :=
  ∀ (s : State) (ws : List CmdWord), ∃ t u rs qs,
    hostWords s ws = some (t, rs) ∧ hostWords s (ws.filter isDecoderWord) = some (u, qs) ∧
      decoderRegs t = decoderRegs u ∧ decodedBytes rs = decodedBytes qs ∧ rs.length = ws.length ∧
      (((ws.zip rs).filter fun wr => isDecoderWord wr.1).map fun wr => wr.2) = qs

/-- 20_memory.md R60: commands complete one after another, one response each, in order. -/
def Obligations.CommandsCompleteInOrder : Prop :=
  (∀ (s : State) (w : CmdWord), ∃ t, step (present (offer w) s) = .next t ∧ hostWords s [w] = some (t, [t.rsp])) ∧
    ∀ (s : State) (ws ws' : List CmdWord), ∃ t u rs rs',
      hostWords s ws = some (t, rs) ∧ rs.length = ws.length ∧ hostWords t ws' = some (u, rs') ∧
        hostWords s (ws ++ ws') = some (u, rs ++ rs')

/-- The host's run is a run of the machine with the samples listed before it starts. -/
def Obligations.HostRunIsACoreRun : Prop :=
  ∀ (s : State) (ps : List PortSample), ∃ t rs, hostRun s ps = some (t, rs) ∧
    Sys2Proof.core.run ps.length { s with input := ps ++ s.input } = .next t

/-- Edges at which nothing is accepted do not show: the responses a host takes and the decoder registers depend only
on the commands and the resets, in their order. Nothing rests on the free value of `rsp` (log 3). -/
def Obligations.IdleEdgesDoNotShow : Prop :=
  ∀ (s : State) (ps : List PortSample), ∃ t u rs,
    hostRun s ps = some (t, rs) ∧ hostRun s (ps.filter fun p => p.rst || p.cmdValid) = some (u, rs) ∧
      decoderRegs t = decoderRegs u

/-! ## Invariants, frames and flags -/

/-- The reset state meets the invariants of 10_state.md R30. -/
def Obligations.ResetMeetsTheDecoderInvariants : Prop := DecoderInv State.reset

/-- 10_state.md R30: (a), (b), (c) are kept by every step, and (d) after DBEGIN, DEND and reset the decoder registers
are those of the reset state. -/
def Obligations.StepKeepsTheDecoderInvariants : Prop :=
  DecoderInv State.reset ∧
    (∀ s t : State, DecoderInv s → step s = .next t → DecoderInv t) ∧
    ∀ (s : State) (p : PortSample),
      p.rst = true ∨ (p.cmdValid = true ∧ (p.cmd = 0x4000 ∨ p.cmd = 0x8000)) →
        ∃ t, step (present p s) = .next t ∧ decoderRegs t = decoderRegs State.reset

/-- When HV and ERR change, at any edge (10_state.md section 4, R31): the events that set them and clear them. -/
def Obligations.FlagsChangeOnlyAsListed : Prop :=
  ∀ (s : State) (p : PortSample), ∃ t, step (present p s) = .next t ∧
    let accepted := p.rst = false ∧ p.cmdValid = true
    let dchar := accepted ∧ p.cmd &&& 0xFF00 = 0x6000
    let valid := (validate (fold (p.cmd.setWidth 8))).ok = true
    let cleared := p.rst = true ∨ (accepted ∧ (p.cmd = 0x4000 ∨ p.cmd = 0x8000))
    (s.err = false → (t.err = true ↔ dchar ∧ ¬valid)) ∧
      (s.err = true → (t.err = false ↔ cleared)) ∧
      (s.hv = false → (t.hv = true ↔ dchar ∧ valid ∧ s.err = false)) ∧
      (s.hv = true → (t.hv = false ↔ cleared ∨ (dchar ∧ valid ∧ s.err = false))) ∧
      (t.epos ≠ s.epos → (s.err = false ∧ t.err = true) ∨ cleared) ∧
      (t.hi ≠ s.hi → cleared ∨ (dchar ∧ valid ∧ s.err = false))

/-- The frame of the commands: what each leaves unchanged. Every command writes the response registers. -/
def Obligations.CommandFrames : Prop :=
  (∀ (i : Instr) (s : State), ∃ t, exec i s = .next t ∧ t.rspValid = true ∧ t.input = s.input ∧
      t.freeIdx = s.freeIdx) ∧
    (∀ (b : Byte) (s : State), ∃ t u, exec (.encU b) s = .next t ∧ exec (.encL b) s = .next u ∧
      decoderRegs t = decoderRegs s ∧ decoderRegs u = decoderRegs s) ∧
    ∀ (c : Byte) (s : State), ∃ t, exec (.dchar c) s = .next t ∧
      ((t.hi = s.hi ∧ t.hv = s.hv) ∨ (t.err = s.err ∧ t.epos = s.epos)) ∧
      (s.err = true → decoderRegs t = decoderRegs s)

/-! ## The assembler -/

/-- 30_encoding.md R91: the syntax table, and the disassembler. That the operand is printed in hexadecimal and how
text is read are the model's choices (logs 10, 11). -/
def Obligations.DisassembledWordAssemblesToItself : Prop :=
  ∀ w : CmdWord,
    assemble (disassemble w) = some [w] ∧ assembleText (printWord w) = some [w] ∧
      (wellFormedWord w = false ↔ disassemble w = .word (.hex w.toNat))

/-- The table of 30_encoding.md section 5: the word of each line of the syntax, for every operand form.
That a character outside ASCII stands for its Unicode code point, and that the operand of `.word` has all three forms, are
the model's choices (logs 17, 18). -/
def Obligations.AssembledWords : Prop :=
  (∀ (o : Operand) (b : Byte), o.value = b.toNat →
      assemble (.encU o) = some [0x2000 ||| b.setWidth 16] ∧ assemble (.encL o) = some [0x2400 ||| b.setWidth 16] ∧
        assemble (.dchar o) = some [0x6000 ||| b.setWidth 16]) ∧
    assemble .dbegin = some [0x4000] ∧ assemble .dend = some [0x8000] ∧
    ∀ (o : Operand) (w : CmdWord), o.value = w.toNat → assemble (.word o) = some [w]

/-- 30_encoding.md R92: the expansions of the pseudo-instructions, for every list of bytes and every string of
characters that the spec gives codes to (D2). -/
def Obligations.PseudoInstructionExpansions : Prop :=
  (∀ bs : List Byte,
      assemble (.encStrU (.list (bs.map fun b => .hex b.toNat))) = some (bs.map fun b => 0x2000 ||| b.setWidth 16) ∧
        assemble (.encStrL (.list (bs.map fun b => .hex b.toNat))) =
          some (bs.map fun b => 0x2400 ||| b.setWidth 16)) ∧
    ∀ cs : List Char, (∀ c ∈ cs, c.toNat < 0x80) →
      assemble (.dstr cs) =
          some (0x4000 :: (cs.map fun c => 0x6000 ||| BitVec.ofNat 16 c.toNat) ++ [0x8000]) ∧
        assemble (.encStrU (.string cs)) = some (cs.map fun c => 0x2000 ||| BitVec.ofNat 16 c.toNat) ∧
        assemble (.encStrL (.string cs)) = some (cs.map fun c => 0x2400 ||| BitVec.ofNat 16 c.toNat)

/-- Strings with characters outside ASCII: up to U+00FF each stands for its Unicode code point, and a string with a
character above that is refused. Both are the model's choices (logs 17, 10). -/
def Obligations.StringsOutsideAscii : Prop :=
  (∀ cs : List Char, (∀ c ∈ cs, c.toNat < 0x100) → ∃ bs : List Byte,
      bs.map (fun b => b.toNat) = cs.map (fun c => c.toNat) ∧
        assemble (.dstr cs) = some ((dstr bs).map encode) ∧
        assemble (.encStrU (.string cs)) = some ((encStr .upper bs).map encode) ∧
        assemble (.encStrL (.string cs)) = some ((encStr .lower bs).map encode)) ∧
    ∀ cs : List Char, (∃ c ∈ cs, 0x100 ≤ c.toNat) →
      assemble (.dstr cs) = none ∧ assemble (.encStrU (.string cs)) = none ∧
        assemble (.encStrL (.string cs)) = none
end

