-- ==== Sys2Proof/Laws/Assembler.lean ====
section
/-! SUPPORT. The digits of the assembler's numbers and the range of its operands, said once: later proofs cite these and do
not unfold `digitValue`, `hexDigit` or `Operand.bits`. -/

namespace Sys2Proof.Machine

/-- A printed digit reads back as its nibble. -/
theorem digitValue_hexDigit : ∀ n < 16, digitValue (hexDigit n) = some n := by decide

/-- A printed digit depends on the low four bits alone. -/
theorem hexDigit_mod (n : Nat) : hexDigit (n % 16) = hexDigit n := by
  have h : BitVec.ofNat 4 (n % 16) = BitVec.ofNat 4 n := by
    apply BitVec.eq_of_toNat_eq
    simp
  rw [hexDigit, hexDigit, h]

/-- An operand whose number is a value of the field is that value. -/
theorem bits_of_value {bits : Nat} (o : Operand) (x : BitVec bits) (h : o.value = x.toNat) :
    o.bits bits = some x := by
  simp [Operand.bits, h, x.isLt]

/-- An operand whose number is no value of the field is refused. -/
theorem bits_out_of_range {bits : Nat} (o : Operand) (h : 2 ^ bits ≤ o.value) : o.bits bits = none := by
  simp [Operand.bits, Nat.not_lt.2 h]

end Sys2Proof.Machine
end

