-- ==== Sys2Proof/Laws/Flags.lean ====
section
/-! SUPPORT. Reading a field of a packed response gives the field of the record. -/

namespace Sys2Proof.Machine

variable (r : Response)

@[simp] theorem rspOut0_pack : rspOut0 r.pack = r.out0 := by
  ext i hi
  interval_cases i <;> simp [rspOut0, Response.pack]

@[simp] theorem rspOut1_pack : rspOut1 r.pack = r.out1 := by
  ext i hi
  interval_cases i <;> simp [rspOut1, Response.pack, BitVec.getLsbD_of_ge]

@[simp] theorem rspNout_pack : rspNout r.pack = r.nout := by
  ext i hi
  interval_cases i <;> simp [rspNout, Response.pack, BitVec.getLsbD_of_ge]

@[simp] theorem rspStatus_pack : rspStatus r.pack = r.status.code := by
  ext i hi
  interval_cases i <;> simp [rspStatus, Response.pack, BitVec.getLsbD_of_ge]

@[simp] theorem rspErrpos_pack : rspErrpos r.pack = r.errpos := by
  ext i hi
  interval_cases i <;> simp [rspErrpos, Response.pack, BitVec.getLsbD_of_ge]

@[simp] theorem rspPend_pack : rspPend r.pack = r.pend := by
  simp [rspPend, Response.pack, BitVec.getLsbD_of_ge]

@[simp] theorem rspZero_pack : rspZero r.pack = 0 := by
  ext i hi
  interval_cases i <;> simp [rspZero, Response.pack, BitVec.getLsbD_of_ge]

/-- A response with NOUT = 1 carries OUT0, one with NOUT = 2 carries OUT0 and OUT1, any other none. -/
theorem rspOutputs_pack :
    rspOutputs r.pack = if r.nout = 1 then [r.out0] else if r.nout = 2 then [r.out0, r.out1] else [] := by
  simp [rspOutputs]

end Sys2Proof.Machine
end

