-- ==== Sys2Proof/Laws/State.lean ====
section
/-! SUPPORT. What each update of the state does to each field: one lemma per field and update, so that no proof unfolds
a record update. The free value that `idleEdge` puts into `rsp` has no lemma: nothing is said of it. -/

namespace Sys2Proof.Machine

variable (s : State)

@[simp] theorem respond_hi (r : Response) : (respond r s).hi = s.hi := rfl
@[simp] theorem respond_hv (r : Response) : (respond r s).hv = s.hv := rfl
@[simp] theorem respond_err (r : Response) : (respond r s).err = s.err := rfl
@[simp] theorem respond_epos (r : Response) : (respond r s).epos = s.epos := rfl
@[simp] theorem respond_rspValid (r : Response) : (respond r s).rspValid = true := rfl
@[simp] theorem respond_rsp (r : Response) : (respond r s).rsp = r.pack := rfl
@[simp] theorem respond_input (r : Response) : (respond r s).input = s.input := rfl
@[simp] theorem respond_freeIdx (r : Response) : (respond r s).freeIdx = s.freeIdx := rfl

@[simp] theorem holdNibble_hi (v : Nibble) : (holdNibble v s).hi = v := rfl
@[simp] theorem holdNibble_hv (v : Nibble) : (holdNibble v s).hv = true := rfl
@[simp] theorem holdNibble_err (v : Nibble) : (holdNibble v s).err = s.err := rfl
@[simp] theorem holdNibble_epos (v : Nibble) : (holdNibble v s).epos = s.epos := rfl
@[simp] theorem holdNibble_rspValid (v : Nibble) : (holdNibble v s).rspValid = s.rspValid := rfl
@[simp] theorem holdNibble_rsp (v : Nibble) : (holdNibble v s).rsp = s.rsp := rfl
@[simp] theorem holdNibble_input (v : Nibble) : (holdNibble v s).input = s.input := rfl
@[simp] theorem holdNibble_freeIdx (v : Nibble) : (holdNibble v s).freeIdx = s.freeIdx := rfl

@[simp] theorem dropNibble_hi : (dropNibble s).hi = 0 := rfl
@[simp] theorem dropNibble_hv : (dropNibble s).hv = false := rfl
@[simp] theorem dropNibble_err : (dropNibble s).err = s.err := rfl
@[simp] theorem dropNibble_epos : (dropNibble s).epos = s.epos := rfl
@[simp] theorem dropNibble_rspValid : (dropNibble s).rspValid = s.rspValid := rfl
@[simp] theorem dropNibble_rsp : (dropNibble s).rsp = s.rsp := rfl
@[simp] theorem dropNibble_input : (dropNibble s).input = s.input := rfl
@[simp] theorem dropNibble_freeIdx : (dropNibble s).freeIdx = s.freeIdx := rfl

@[simp] theorem latchError_hi (ip : EPos) : (latchError ip s).hi = s.hi := rfl
@[simp] theorem latchError_hv (ip : EPos) : (latchError ip s).hv = s.hv := rfl
@[simp] theorem latchError_err (ip : EPos) : (latchError ip s).err = true := rfl
@[simp] theorem latchError_epos (ip : EPos) : (latchError ip s).epos = ip := rfl
@[simp] theorem latchError_rspValid (ip : EPos) : (latchError ip s).rspValid = s.rspValid := rfl
@[simp] theorem latchError_rsp (ip : EPos) : (latchError ip s).rsp = s.rsp := rfl
@[simp] theorem latchError_input (ip : EPos) : (latchError ip s).input = s.input := rfl
@[simp] theorem latchError_freeIdx (ip : EPos) : (latchError ip s).freeIdx = s.freeIdx := rfl

@[simp] theorem clearDecoder_hi : (clearDecoder s).hi = 0 := rfl
@[simp] theorem clearDecoder_hv : (clearDecoder s).hv = false := rfl
@[simp] theorem clearDecoder_err : (clearDecoder s).err = false := rfl
@[simp] theorem clearDecoder_epos : (clearDecoder s).epos = 0 := rfl
@[simp] theorem clearDecoder_rspValid : (clearDecoder s).rspValid = s.rspValid := rfl
@[simp] theorem clearDecoder_rsp : (clearDecoder s).rsp = s.rsp := rfl
@[simp] theorem clearDecoder_input : (clearDecoder s).input = s.input := rfl
@[simp] theorem clearDecoder_freeIdx : (clearDecoder s).freeIdx = s.freeIdx := rfl

@[simp] theorem resetEdge_hi : (resetEdge s).hi = 0 := rfl
@[simp] theorem resetEdge_hv : (resetEdge s).hv = false := rfl
@[simp] theorem resetEdge_err : (resetEdge s).err = false := rfl
@[simp] theorem resetEdge_epos : (resetEdge s).epos = 0 := rfl
@[simp] theorem resetEdge_rspValid : (resetEdge s).rspValid = false := rfl
@[simp] theorem resetEdge_rsp : (resetEdge s).rsp = 0 := rfl
@[simp] theorem resetEdge_input : (resetEdge s).input = s.input := rfl
@[simp] theorem resetEdge_freeIdx : (resetEdge s).freeIdx = s.freeIdx := rfl

@[simp] theorem idleEdge_hi (w : CmdWord) : (idleEdge w s).hi = s.hi := rfl
@[simp] theorem idleEdge_hv (w : CmdWord) : (idleEdge w s).hv = s.hv := rfl
@[simp] theorem idleEdge_err (w : CmdWord) : (idleEdge w s).err = s.err := rfl
@[simp] theorem idleEdge_epos (w : CmdWord) : (idleEdge w s).epos = s.epos := rfl
@[simp] theorem idleEdge_rspValid (w : CmdWord) : (idleEdge w s).rspValid = false := rfl
@[simp] theorem idleEdge_input (w : CmdWord) : (idleEdge w s).input = s.input := rfl
@[simp] theorem idleEdge_freeIdx (w : CmdWord) : (idleEdge w s).freeIdx = s.freeIdx + 1 := rfl

@[simp] theorem passEdge_hi : (passEdge s).hi = s.hi := rfl
@[simp] theorem passEdge_hv : (passEdge s).hv = s.hv := rfl
@[simp] theorem passEdge_err : (passEdge s).err = s.err := rfl
@[simp] theorem passEdge_epos : (passEdge s).epos = s.epos := rfl
@[simp] theorem passEdge_rspValid : (passEdge s).rspValid = s.rspValid := rfl
@[simp] theorem passEdge_rsp : (passEdge s).rsp = s.rsp := rfl
@[simp] theorem passEdge_input : (passEdge s).input = s.input.tail := rfl
@[simp] theorem passEdge_freeIdx : (passEdge s).freeIdx = s.freeIdx := rfl

@[simp] theorem present_hi (p : PortSample) : (present p s).hi = s.hi := rfl
@[simp] theorem present_hv (p : PortSample) : (present p s).hv = s.hv := rfl
@[simp] theorem present_err (p : PortSample) : (present p s).err = s.err := rfl
@[simp] theorem present_epos (p : PortSample) : (present p s).epos = s.epos := rfl
@[simp] theorem present_rspValid (p : PortSample) : (present p s).rspValid = s.rspValid := rfl
@[simp] theorem present_rsp (p : PortSample) : (present p s).rsp = s.rsp := rfl
@[simp] theorem present_input (p : PortSample) : (present p s).input = p :: s.input := rfl
@[simp] theorem present_freeIdx (p : PortSample) : (present p s).freeIdx = s.freeIdx := rfl

/-! Every input list is a sample in front of the rest, or ends. -/

@[simp] theorem passEdge_present (p : PortSample) : passEdge (present p s) = s := rfl

@[simp] theorem nextSample_present (p : PortSample) : nextSample (present p s) = p := rfl

theorem eq_present_of_input (p : PortSample) (ps : List PortSample) (h : s.input = p :: ps) :
    s = present p { s with input := ps } := by
  cases s
  subst h
  rfl

end Sys2Proof.Machine
end

