-- ==== Sys2Proof/Laws/Ops.lean ====
section
/-! SUPPORT. What each shared operation and the step can do, said once: later proofs cite these and do not unfold
`step`, `exec` or `execDchar`. -/

namespace Sys2Proof.Machine

/-! The ports. -/

@[simp] theorem portEvent_offer (w : CmdWord) : portEvent (offer w) = .accept w := rfl

theorem portEvent_reset (valid : Bool) (w : CmdWord) : portEvent ⟨true, valid, w⟩ = .reset := rfl

theorem portEvent_idle (w : CmdWord) : portEvent ⟨false, false, w⟩ = .idle w := rfl

theorem portEvent_accept_iff (p : PortSample) (w : CmdWord) :
    portEvent p = .accept w ↔ p = offer w := by
  obtain ⟨rst, valid, cmd⟩ := p
  cases rst <;> cases valid <;> simp [portEvent, cmdReady, offer]

/-! The step, by what the ports carry. -/

theorem step_offer_ok (s : State) (w : CmdWord) (i : Instr) (h : decode w = .ok i) :
    step (present (offer w) s) = exec i s := by
  simp [step, h]

theorem step_offer_error (s : State) (w : CmdWord) (e : Illegal) (h : decode w = .error e) :
    step (present (offer w) s) = .next (illegal s) := by
  simp [step, h]

@[simp] theorem step_reset (s : State) (valid : Bool) (w : CmdWord) :
    step (present ⟨true, valid, w⟩ s) = .next (resetEdge s) := rfl

@[simp] theorem step_idle (s : State) (w : CmdWord) :
    step (present ⟨false, false, w⟩ s) = .next (idleEdge w s) := rfl

/-! The decoder's character command, in its four cases (41_decoder.md R142). -/

theorem execDchar_cases (c : Byte) (s : State) :
    (s.err = true ∧ execDchar c s = .next (repeatError s)) ∨
      (s.err = false ∧ (validate (fold c)).ok = false ∧
        execDchar c s = .next (takeInvalid (validate (fold c)).ip s)) ∨
      (s.err = false ∧ (validate (fold c)).ok = true ∧ s.hv = true ∧
        execDchar c s = .next (takeLowNibble (validate (fold c)).v s)) ∨
      (s.err = false ∧ (validate (fold c)).ok = true ∧ s.hv = false ∧
        execDchar c s = .next (takeHighNibble (validate (fold c)).v s)) := by
  cases he : s.err <;> cases hd : (validate (fold c)).ok <;> cases hv : s.hv <;>
    simp [execDchar, he, hd, hv]

/-- What a command's next state is: by the command, and for DCHAR by the case. -/
theorem exec_cases {i : Instr} {s t : State} (h : exec i s = .next t) :
    (∃ b, i = .encU b ∧ t = encodeByte .upper b s) ∨ (∃ b, i = .encL b ∧ t = encodeByte .lower b s) ∨
      (i = .dbegin ∧ t = respond (statusResponse .ok 0 false) (clearDecoder s)) ∨
      (∃ c, i = .dchar c ∧
        ((s.err = true ∧ t = repeatError s) ∨
          (s.err = false ∧ (validate (fold c)).ok = false ∧ t = takeInvalid (validate (fold c)).ip s) ∨
          (s.err = false ∧ (validate (fold c)).ok = true ∧ s.hv = true ∧
            t = takeLowNibble (validate (fold c)).v s) ∨
          (s.err = false ∧ (validate (fold c)).ok = true ∧ s.hv = false ∧
            t = takeHighNibble (validate (fold c)).v s))) ∨
      (i = .dend ∧ t = respond (endOfTransaction s) (clearDecoder s)) := by
  cases i with
  | encU b => exact .inl ⟨b, rfl, (Host.Outcome.next.inj h).symm⟩
  | encL b => exact .inr (.inl ⟨b, rfl, (Host.Outcome.next.inj h).symm⟩)
  | dbegin => exact .inr (.inr (.inl ⟨rfl, (Host.Outcome.next.inj h).symm⟩))
  | dend => exact .inr (.inr (.inr (.inr ⟨rfl, (Host.Outcome.next.inj h).symm⟩)))
  | dchar c =>
    refine .inr (.inr (.inr (.inl ⟨c, rfl, ?_⟩)))
    rw [exec] at h
    rcases execDchar_cases c s with ⟨he, hx⟩ | ⟨he, hd, hx⟩ | ⟨he, hd, hv, hx⟩ | ⟨he, hd, hv, hx⟩ <;>
      · rw [hx] at h
        obtain rfl := Host.Outcome.next.inj h
        simp [*]

/-- Everything one edge can do. -/
theorem step_cases {s t : State} (h : step s = .next t) :
    (portEvent (nextSample s) = .reset ∧ t = resetEdge (passEdge s)) ∨
      (∃ w, portEvent (nextSample s) = .idle w ∧ t = idleEdge w (passEdge s)) ∨
      (∃ w i, portEvent (nextSample s) = .accept w ∧ decode w = .ok i ∧ exec i (passEdge s) = .next t) ∨
      (∃ w e, portEvent (nextSample s) = .accept w ∧ decode w = .error e ∧ t = illegal (passEdge s)) := by
  rw [step] at h
  split at h
  · exact .inl ⟨‹_›, (Host.Outcome.next.inj h).symm⟩
  · exact .inr (.inl ⟨_, ‹_›, (Host.Outcome.next.inj h).symm⟩)
  · split at h
    · exact .inr (.inr (.inl ⟨_, _, ‹_›, ‹_›, h⟩))
    · exact .inr (.inr (.inr ⟨_, _, ‹_›, ‹_›, (Host.Outcome.next.inj h).symm⟩))

/-! Fields after each way of writing a response. -/

theorem decoderFields_encodeByte (k : LetterCase) (b : Byte) (s : State) :
    (encodeByte k b s).hi = s.hi ∧ (encodeByte k b s).hv = s.hv ∧ (encodeByte k b s).err = s.err ∧
      (encodeByte k b s).epos = s.epos := ⟨rfl, rfl, rfl, rfl⟩

theorem decoderFields_illegal (s : State) :
    (illegal s).hi = s.hi ∧ (illegal s).hv = s.hv ∧ (illegal s).err = s.err ∧ (illegal s).epos = s.epos :=
  ⟨rfl, rfl, rfl, rfl⟩

end Sys2Proof.Machine
end

