-- ==== Sys2Proof/Laws/PerInstr.lean ====
section
/-! SUPPORT. Facts about every command as syntax, one lemma per constructor. -/

namespace Sys2Proof.Laws

/-- The encoded word belongs to its own row of 30_encoding.md R78 and to no other. -/
def EncodedRow.Statement (i : Instr) : Prop :=
  i.pattern.covers (encode i) = true ∧ commandMap.countP (fun p => p.covers (encode i)) = 1

theorem EncodedRow.encU (b : Byte) : EncodedRow.Statement (.encU b) := by
  revert b
  unfold EncodedRow.Statement
  decide

theorem EncodedRow.encL (b : Byte) : EncodedRow.Statement (.encL b) := by
  revert b
  unfold EncodedRow.Statement
  decide

theorem EncodedRow.dbegin : EncodedRow.Statement .dbegin := by
  unfold EncodedRow.Statement
  decide

theorem EncodedRow.dchar (c : Byte) : EncodedRow.Statement (.dchar c) := by
  revert c
  unfold EncodedRow.Statement
  decide

theorem EncodedRow.dend : EncodedRow.Statement .dend := by
  unfold EncodedRow.Statement
  decide

end Sys2Proof.Laws
end

