-- ==== Sys2Proof/Tests/Slice0.lean ====
section
/-! SUPPORT. Small tests, each of one step or one function, with values from spec/95_test_vectors.md and the examples of the
rules; and a witness for every statement that has hypotheses. -/

namespace Sys2Proof.Tests

open Sys2Proof.Machine

/-- A state with the given decoder registers and no input. -/
def st (hi : Nibble) (hv err : Bool) (epos : EPos) : State :=
  { State.reset with hi := hi, hv := hv, err := err, epos := epos }

/-- The response and the decoder registers after the word is offered in the state. -/
def answer (s : State) (w : CmdWord) : Option (RspWord × Nibble × Bool × Bool × EPos) :=
  match step (present (offer w) s) with
  | .next t => some (t.rsp, decoderRegs t)
  | .fault _ => none
  | .refused _ => none

/-! ## Words refused by the checks (30_encoding.md R78, 95_test_vectors.md section 2.5) -/

theorem test_wf_refuses_reserved_op : wellFormedWord 0x0000 = false ∧ wellFormedWord 0xA000 = false := by decide
theorem test_wf_refuses_reserved_variant : wellFormedWord 0x2800 = false := by decide
theorem test_wf_refuses_reserved_bits : wellFormedWord 0x2100 = false ∧ wellFormedWord 0x2600 = false := by decide
theorem test_wf_refuses_case : wellFormedWord 0x6441 = false ∧ wellFormedWord 0x4400 = false := by decide
theorem test_wf_refuses_data : wellFormedWord 0x4001 = false ∧ wellFormedWord 0x8001 = false := by decide
theorem test_wf_accepts_neighbours :
    [0x2000, 0x2400, 0x6041, 0x4000, 0x8000].all wellFormedWord = true := by decide
theorem test_operand_out_of_range : (Operand.hex 0x100).bits 8 = none ∧ assemble (.encU (.dec 256)) = none := by decide

/-! ## Decoding and encoding: words from 30_encoding.md R70, R72, R78 -/

theorem test_decode_encU : decode 0b0010000000111010 = .ok (.encU 0x3A) := by decide
theorem test_decode_encL : decode 0b0010010000111010 = .ok (.encL 0x3A) := by decide
theorem test_decode_dbegin : decode 0b0100000000000000 = .ok .dbegin := by decide
theorem test_decode_dchar : decode 0b0110000001000001 = .ok (.dchar 0x41) := by decide
theorem test_decode_dend : decode 0b1000000000000000 = .ok .dend := by decide
theorem test_encode_words :
    [Instr.encU 0x3A, .encL 0x3A, .dbegin, .dchar 0x41, .dend].map encode =
      [0x203A, 0x243A, 0x4000, 0x6041, 0x8000] := by decide
theorem test_table_word : decodeTableWord 16 0x6041 = some (.dchar 0x41) ∧ decodeTableWord 16 0x6441 = none := by decide

/-! ## One command (95_test_vectors.md sections 2.1, 2.3, 2.4, 2.5) -/

theorem test_encU : answer (st 0 false false 0) 0x203A = some (0x00024133, 0, false, false, 0) := by decide
theorem test_encU_pending : answer (st 10 true false 0) 0x203A = some (0x04024133, 10, true, false, 0) := by decide
theorem test_encL : answer (st 0 false false 0) 0x240A = some (0x00026130, 0, false, false, 0) := by decide
theorem test_encL_latched : answer (st 0 false true 16) 0x243A = some (0x00026133, 0, false, true, 16) := by decide
theorem test_dchar_merge : answer (st 10 true false 0) 0x6066 = some (0x000100AF, 0, false, false, 0) := by decide
theorem test_dchar_invalid_second :
    answer (st 3 true false 0) 0x6020 = some (0x04040000, 3, true, true, 0) := by decide
theorem test_dbegin : answer (st 7 true false 0) 0x4000 = some (0x00000000, 0, false, false, 0) := by decide
theorem test_dbegin_latched : answer (st 0 false true 16) 0x4000 = some (0x00000000, 0, false, false, 0) := by decide
theorem test_dend_odd : answer (st 10 true false 0) 0x8000 = some (0x00080000, 0, false, false, 0) := by decide
theorem test_dend_latched_and_odd :
    answer (st 3 true true 16) 0x8000 = some (0x02040000, 0, false, false, 0) := by decide
theorem test_illegal_pending : answer (st 5 true false 0) 0x0000 = some (0x040C0000, 5, true, false, 0) := by decide
theorem test_illegal_latched : answer (st 0 false true 16) 0xE000 = some (0x000C0000, 0, false, true, 16) := by decide

/-! ## The validator (95_test_vectors.md section 2.2) and the assembler -/

theorem test_insertion_points :
    [0x2F, 0x3A, 0x40, 0x47, 0x5A, 0x5B, 0x60, 0x67, 0x80, 0xFF].map (fun c => (validate (fold c)).ip) =
      [0, 10, 10, 16, 16, 10, 10, 16, 16, 16] := by decide
theorem test_nibbles :
    [0x30, 0x39, 0x41, 0x46, 0x61, 0x66].map (fun c => (validate (fold c)).v) = [0, 9, 10, 15, 10, 15] := by decide
theorem test_assemble_comment : assembleText "  ENC.U 0x3A ; the example".toList = some [0x203A] := by decide
theorem test_assemble_digits :
    assembleText "ENC.U 0x3a".toList = some [0x203A] ∧ assembleText ".word 40961".toList = some [0xA001] ∧
      assembleText "DCHAR 1A".toList = none ∧ assembleText "DCHAR 0x".toList = none := by decide
theorem test_assemble_quoted : assembleText "DCHAR 'A'".toList = some [0x6041] := by decide
theorem test_assemble_dstr : assembleText "DSTR \"1g\"".toList = some [0x4000, 0x6031, 0x6067, 0x8000] := by decide
theorem test_assemble_list : assembleText "ENCSTR.U [0xDE, 173]".toList = some [0x20DE, 0x20AD] := by decide
theorem test_print_word : printWord 0x24C3 = "ENC.L 0xC3".toList ∧ printWord 0x0000 = ".word 0x0000".toList := by decide

/-! ## Witnesses: states and operands that meet the hypotheses of each statement that has some -/

theorem witness_StepRunsTheDecodedCommand :
    ∃ (s : State) (p : PortSample) (ps : List PortSample) (i : Instr),
      s.input = p :: ps ∧ p.rst = false ∧ p.cmdValid = true ∧ decode p.cmd = .ok i :=
  ⟨present (offer 0x6041) State.reset, offer 0x6041, [], .dchar 0x41, rfl, rfl, rfl, by decide⟩

theorem witness_StepIsTheDispatchByMaskAndMatch :
    ∃ s s' : State, decoderRegs s = decoderRegs s' ∧ s ≠ s' :=
  ⟨st 3 true false 0, { st 3 true false 0 with rsp := 1, freeIdx := 7 }, by decide, by decide⟩

theorem witness_EncodeOfDecode : ∃ (w : CmdWord) (i : Instr), decode w = .ok i := ⟨0x60FF, .dchar 0xFF, by decide⟩

theorem witness_LegalWordsAreTheFivePatterns : ∃ w : CmdWord, opField w = 0b001 ∧ varField w ≠ 0 := ⟨0x3800, by decide⟩

theorem witness_IllegalWordIsAnsweredAndChangesNothing : ∃ (w : CmdWord) (e : Illegal), decode w = .error e :=
  ⟨0xFFFF, .reservedOp, by decide⟩

theorem witness_PendIsHvAfterTheCommand :
    isEncWord 0x20FF = true ∧ isEncWord 0x2400 = true ∧ wellFormedWord 0x0000 = false := by decide

theorem witness_EveryResponseIsLegal :
    DecoderInv (st 0 false false 0) ∧ DecoderInv (st 15 true false 0) ∧ DecoderInv (st 3 true true 0) ∧
      DecoderInv (st 0 false true 10) ∧ DecoderInv (st 0 false true 16) := by decide

theorem witness_EncUWord : (0x2000 : CmdWord) &&& 0xFF00 = 0x2000 ∧ (0x20FF : CmdWord) &&& 0xFF00 = 0x2000 := by decide

theorem witness_EncLWord :
    (0x2400 : CmdWord) &&& 0xFF00 = 0x2400 ∧ (0x24FF : CmdWord) &&& 0xFF00 = 0x2400 ∧
      hiNibble 0x99 ≤ 9 ∧ loNibble 0x99 ≤ 9 ∧ hiNibble 0x00 ≤ 9 ∧ loNibble 0x00 ≤ 9 := by decide

theorem witness_ValidatorAcceptsRomLEntries :
    ((0x30 : Byte) ≤ 0x39 ∧ (0x39 : Byte) ≤ 0x39) ∧ ((0x61 : Byte) ≤ 0x66 ∧ (0x66 : Byte) ≤ 0x66) ∧
      (validate 0x66).ok = true ∧ (validate 0x67).ok = false ∧ (validate 0x60).ok = false := by decide

/-- The search ends at 0, 10 and 16 on the boundary codes; the ranges of the table meet at no code. -/
theorem witness_InsertionPointByRanges :
    ((∀ i : Fin 16, 0 ≤ i.val → (0x2F : Byte) < romL.get i)) ∧
      ((∀ i : Fin 16, i.val < 10 → romL.get i < (0x3A : Byte)) ∧
        ∀ i : Fin 16, 10 ≤ i.val → (0x3A : Byte) < romL.get i) ∧
      ((∀ i : Fin 16, i.val < 10 → romL.get i < (0x60 : Byte)) ∧
        ∀ i : Fin 16, 10 ≤ i.val → (0x60 : Byte) < romL.get i) ∧
      (∀ i : Fin 16, i.val < 16 → romL.get i < (0x67 : Byte)) ∧
      [0x2F, 0x3A, 0x40, 0x47, 0x5A, 0x5B, 0x60, 0x67, 0xFF].map (fun c => insertionPoint (fold c)) =
        [0, 10, 10, 16, 16, 10, 10, 16, 16] := by decide

theorem witness_DbeginResult : decoderCleared State.reset := by decide

theorem witness_StickyErrorIgnoresCharacters :
    (st 3 true true 16).err = true ∧ isEncWord 0x203A = true ∧ wellFormedWord 0xE000 = false := by decide

theorem witness_InvalidCharBeforeOddLength :
    [0x31, 0x67, 0x32].length % 2 = 1 ∧ firstInvalid [0x31, 0x67, 0x32] = some 16 := by decide

theorem witness_FailureReportedFromTheFirstInvalidCharacter :
    (∀ x ∈ [(0x31 : Byte)], (validate (fold x)).ok = true) ∧ (validate (fold 0x67)).ok = false := by decide

theorem witness_DecodeOperationIsItsClosedForm :
    [0x61, 0x46].length % 2 = 0 ∧ sourceDecode [0x61, 0x46] = .ok [0xAF] ∧ (validate (fold 0x47)).ok = false ∧
      sourceDecode [0x41, 0x46, 0x47, 0x48, 0x48, 0x46, 0x4A] = .error 16 :=
  ⟨rfl, by decide, by decide, by decide⟩

theorem witness_DecodeIgnoresCaseAndState : hostDecode State.reset [0x66, 0x46] = some (.ok [0xFF]) := by decide

theorem witness_StepKeepsTheDecoderInvariants :
    (∃ s t : State, DecoderInv s ∧ step s = .next t ∧ s.err = true ∧ s.epos = 16) ∧
      (⟨true, true, 0x2000⟩ : PortSample).rst = true ∧
      (offer 0x4000).cmdValid = true ∧ (offer 0x4000).cmd = 0x4000 ∧ (offer 0x8000).cmd = 0x8000 :=
  ⟨⟨present (offer 0x6031) (st 1 true true 16), _, by decide, rfl, rfl, rfl⟩, rfl, rfl, rfl, rfl⟩

/-- Each clause of the flags' rule has a state and a sample that meet its premise, both ways. -/
theorem witness_FlagsChangeOnlyAsListed :
    answer (st 0 false false 0) 0x6067 = some (0x02040000, 0, false, true, 16) ∧
      answer (st 0 false true 16) 0x8000 = some (0x02040000, 0, false, false, 0) ∧
      answer (st 0 false false 0) 0x6041 = some (0x04000000, 10, true, false, 0) ∧
      answer (st 0 true false 0) 0x6030 = some (0x00010000, 0, false, false, 0) ∧
      answer (st 3 true true 0) 0x6031 = some (0x04040000, 3, true, true, 0) :=
  ⟨by decide, by decide, by decide, by decide, by decide⟩

theorem witness_CommandFrames : (st 3 true true 10).err = true := by decide

theorem witness_AssembledWords :
    (Operand.hex 0xFF).value = (0xFF : Byte).toNat ∧ (Operand.dec 0).value = (0 : Byte).toNat ∧
      (Operand.quoted 'A').value = (0x41 : Byte).toNat ∧ (Operand.hex 0xFFFF).value = (0xFFFF : CmdWord).toNat := by decide

theorem witness_PseudoInstructionExpansions : ∀ c ∈ ['A', 'f', '\x00', '\x7F'], c.toNat < 0x80 := by simp

theorem witness_StringsOutsideAscii :
    (∀ c ∈ ['A', '\xFF'], c.toNat < 0x100) ∧ ∃ c ∈ ['A', 'Ā'], 0x100 ≤ c.toNat := by simp

end Sys2Proof.Tests
end

/-! PROOFS. The invariants of the decoder registers (spec/10_state.md R30): reset, every command and every edge keep them,
and the edges that clear the registers. -/

namespace Sys2Proof.Machine

/-! The invariants speak of the decoder registers alone. -/

theorem decoderInv_reset : DecoderInv State.reset := by decide

theorem decoderInv_of_decoderRegs_eq {s t : State} (h : decoderRegs t = decoderRegs s) (hs : DecoderInv s) :
    DecoderInv t := by
  obtain ⟨hhi, hhv, herr, hepos⟩ : t.hi = s.hi ∧ t.hv = s.hv ∧ t.err = s.err ∧ t.epos = s.epos := by
    simpa using h
  simpa only [DecoderInv, hhi, hhv, herr, hepos] using hs

theorem decoderInv_of_decoderCleared {t : State} (h : decoderCleared t) : DecoderInv t :=
  decoderInv_of_decoderRegs_eq h decoderInv_reset

/-! The character command, in its four cases (41_decoder.md R142, R143). -/

/-- A code the validator refuses lies below all digits, between the digits and the letters, or above all letters of
ROM_L, so the position it reports is 0, 10 or 16 (10_state.md R29). -/
theorem legalPosition_ip_of_refused : ∀ f : Byte, (validate f).ok = false → legalPosition (validate f).ip := by
  decide

theorem decoderRegs_repeatError (s : State) : decoderRegs (repeatError s) = decoderRegs s := rfl

theorem decoderInv_takeInvalid {s : State} {ip : EPos} (hip : legalPosition ip) (hs : DecoderInv s) :
    DecoderInv (takeInvalid ip s) := by
  obtain ⟨hnibble, -, -⟩ := hs
  exact ⟨hnibble, by simp [takeInvalid], fun _ => hip⟩

theorem decoderInv_takeLowNibble {s : State} (v : Nibble) (hs : DecoderInv s) : DecoderInv (takeLowNibble v s) := by
  obtain ⟨-, hclean, hlatched⟩ := hs
  exact ⟨fun _ => rfl, hclean, hlatched⟩

theorem decoderInv_takeHighNibble {s : State} (v : Nibble) (hs : DecoderInv s) :
    DecoderInv (takeHighNibble v s) := by
  obtain ⟨-, hclean, hlatched⟩ := hs
  exact ⟨by simp [takeHighNibble], hclean, hlatched⟩

/-! Every command, and every edge. -/

theorem exec_keeps_decoderInv {i : Instr} {s t : State} (hs : DecoderInv s) (h : exec i s = .next t) :
    DecoderInv t := by
  obtain ⟨b, -, rfl⟩ | ⟨b, -, rfl⟩ | ⟨-, rfl⟩ | ⟨c, -, hchar⟩ | ⟨-, rfl⟩ := exec_cases h
  case inl | inr.inl => exact decoderInv_of_decoderRegs_eq rfl hs
  case inr.inr.inl | inr.inr.inr.inr => exact decoderInv_of_decoderCleared rfl
  case inr.inr.inr.inl =>
    obtain ⟨-, rfl⟩ | ⟨-, hrefused, rfl⟩ | ⟨-, -, -, rfl⟩ | ⟨-, -, -, rfl⟩ := hchar
    · exact decoderInv_of_decoderRegs_eq (decoderRegs_repeatError s) hs
    · exact decoderInv_takeInvalid (legalPosition_ip_of_refused _ hrefused) hs
    · exact decoderInv_takeLowNibble _ hs
    · exact decoderInv_takeHighNibble _ hs

theorem step_keeps_decoderInv {s t : State} (hs : DecoderInv s) (h : step s = .next t) : DecoderInv t := by
  have hpass : DecoderInv (passEdge s) := decoderInv_of_decoderRegs_eq rfl hs
  obtain ⟨-, rfl⟩ | ⟨w, -, rfl⟩ | ⟨w, i, -, -, hexec⟩ | ⟨w, e, -, -, rfl⟩ := step_cases h
  · exact decoderInv_of_decoderCleared rfl
  · exact decoderInv_of_decoderRegs_eq rfl hpass
  · exact exec_keeps_decoderInv hpass hexec
  · exact decoderInv_of_decoderRegs_eq rfl hpass

/-! The edges that clear the decoder registers. -/

theorem decode_dbeginWord : decode 0x4000 = .ok .dbegin := by rfl

theorem decode_dendWord : decode 0x8000 = .ok .dend := by rfl

theorem step_dbegin (s : State) :
    step (present (offer 0x4000) s) = .next (respond (statusResponse .ok 0 false) (clearDecoder s)) :=
  step_offer_ok s _ _ decode_dbeginWord

theorem step_dend (s : State) :
    step (present (offer 0x8000) s) = .next (respond (endOfTransaction s) (clearDecoder s)) :=
  step_offer_ok s _ _ decode_dendWord

/-- 10_state.md R30(d): a reset edge, DBEGIN and DEND clear the decoder registers from every state. -/
theorem step_clears_decoder (s : State) (p : PortSample)
    (hp : p.rst = true ∨ (p.cmdValid = true ∧ (p.cmd = 0x4000 ∨ p.cmd = 0x8000))) :
    ∃ t, step (present p s) = .next t ∧ decoderCleared t := by
  obtain ⟨rst, valid, cmd⟩ := p
  cases rst with
  | true => exact ⟨_, step_reset s valid cmd, rfl⟩
  | false =>
    obtain ⟨rfl, rfl | rfl⟩ : valid = true ∧ (cmd = 0x4000 ∨ cmd = 0x8000) := by simpa using hp
    · exact ⟨_, step_dbegin s, rfl⟩
    · exact ⟨_, step_dend s, rfl⟩

/-- Settles O51: the case analysis of an edge (`step_cases`) for the invariants, and the three clearing edges. -/
theorem stepKeepsTheDecoderInvariants : Obligations.StepKeepsTheDecoderInvariants :=
  ⟨decoderInv_reset, fun _ _ => step_keeps_decoderInv, step_clears_decoder⟩

end Sys2Proof.Machine

/-! PROOFS. The alphabet ROMs (spec/10_state.md R24 to R26, R36): the tables, their closed forms and their order. -/

namespace Sys2Proof.Machine

theorem romU_toList :
    romU.toList =
      [0x30, 0x31, 0x32, 0x33, 0x34, 0x35, 0x36, 0x37, 0x38, 0x39, 0x41, 0x42, 0x43, 0x44, 0x45, 0x46] := rfl

theorem romL_toList :
    romL.toList =
      [0x30, 0x31, 0x32, 0x33, 0x34, 0x35, 0x36, 0x37, 0x38, 0x39, 0x61, 0x62, 0x63, 0x64, 0x65, 0x66] := rfl

theorem romRead_upper_closedForm :
    ∀ i : Nibble, romRead .upper i = if i ≤ 9 then 0x30 + i.setWidth 8 else 0x41 + (i.setWidth 8 - 10) := by
  decide

theorem romRead_lower_closedForm :
    ∀ i : Nibble, romRead .lower i = if i ≤ 9 then 0x30 + i.setWidth 8 else 0x61 + (i.setWidth 8 - 10) := by
  decide

theorem romRead_lt_romRead_succ (k : LetterCase) : ∀ i : Nibble, i < 15 → romRead k i < romRead k (i + 1) := by
  cases k <;> decide

theorem rom_nodup (k : LetterCase) : (rom k).toList.Nodup := by
  cases k <;> decide

/-- Settles O1: the four registers and the two tables, each by the definition of reset and of the ROM. -/
theorem resetRegistersAndRoms : Obligations.ResetRegistersAndRoms :=
  ⟨rfl, rfl, rfl, rfl, romU_toList, romL_toList⟩

/-- Settles O22: the two tables, and the closed form of each checked on the 16 nibbles. -/
theorem romContents : Obligations.RomContents :=
  ⟨romU_toList, romL_toList, romRead_upper_closedForm, romRead_lower_closedForm⟩

/-- Settles O23: for each case the order is checked on the 16 nibbles; the length is that of the vector. -/
theorem romsStrictlyIncrease : Obligations.RomsStrictlyIncrease :=
  ⟨romRead_lt_romRead_succ, fun k => ⟨rom_nodup k, (rom k).length_toList⟩⟩

end Sys2Proof.Machine

/-! PROOFS. A host's run (spec/20_memory.md R60): every command is answered at its own edge, a run over samples put one
after another is the two runs one after another, and each word offered gives one response. -/

namespace Sys2Proof.Machine

/-! Every accepted word is answered. -/

theorem exec_answers (i : Instr) (s : State) : ∃ t, exec i s = .next t ∧ t.rspValid = true := by
  cases i with
  | encU b => exact ⟨encodeByte .upper b s, rfl, rfl⟩
  | encL b => exact ⟨encodeByte .lower b s, rfl, rfl⟩
  | dbegin => exact ⟨_, rfl, respond_rspValid _ _⟩
  | dend => exact ⟨_, rfl, respond_rspValid _ _⟩
  | dchar c =>
    obtain ⟨-, h⟩ | ⟨-, -, h⟩ | ⟨-, -, -, h⟩ | ⟨-, -, -, h⟩ := execDchar_cases c s
    all_goals exact ⟨_, h, respond_rspValid _ _⟩

theorem step_offer_answers (s : State) (w : CmdWord) :
    ∃ t, step (present (offer w) s) = .next t ∧ t.rspValid = true := by
  cases hd : decode w with
  | ok i =>
    rw [step_offer_ok s w i hd]
    exact exec_answers i s
  | error e => exact ⟨illegal s, step_offer_error s w e hd, rfl⟩

/-! The run over samples. -/

@[simp] theorem hostRun_nil (s : State) : hostRun s [] = some (s, []) := rfl

theorem hostRun_cons {s t : State} {p : PortSample} (ps : List PortSample) (h : step (present p s) = .next t) :
    hostRun s (p :: ps) = (hostRun t ps).map fun r => (r.1, if t.rspValid then t.rsp :: r.2 else r.2) := by
  simp only [hostRun, h]

theorem hostRun_append (s : State) (ps qs : List PortSample) :
    hostRun s (ps ++ qs) =
      (hostRun s ps).bind fun r => (hostRun r.1 qs).map fun r' => (r'.1, r.2 ++ r'.2) := by
  induction ps generalizing s with
  | nil => simp
  | cons p ps ih =>
    cases h : step (present p s) with
    | next t =>
      rw [List.cons_append, hostRun_cons _ h, hostRun_cons _ h, ih t]
      cases hostRun t ps with
      | none => rfl
      | some r => cases t.rspValid <;> simp [Function.comp_def]
    | fault _ => simp [hostRun, h]
    | refused _ => simp [hostRun, h]

/-! The run over words. -/

@[simp] theorem hostWords_nil (s : State) : hostWords s [] = some (s, []) := rfl

theorem hostWords_cons {s t u : State} {w : CmdWord} {ws : List CmdWord} {rs : List RspWord}
    (h : step (present (offer w) s) = .next t) (hv : t.rspValid = true) (hws : hostWords t ws = some (u, rs)) :
    hostWords s (w :: ws) = some (u, t.rsp :: rs) := by
  rw [hostWords] at hws ⊢
  simp [hostRun_cons _ h, hws, hv]

theorem hostWords_append {s t u : State} {ws ws' : List CmdWord} {rs rs' : List RspWord}
    (h : hostWords s ws = some (t, rs)) (h' : hostWords t ws' = some (u, rs')) :
    hostWords s (ws ++ ws') = some (u, rs ++ rs') := by
  rw [hostWords] at h h' ⊢
  simp [hostRun_append, h, h']

theorem hostWords_answers (s : State) (ws : List CmdWord) :
    ∃ t rs, hostWords s ws = some (t, rs) ∧ rs.length = ws.length := by
  induction ws generalizing s with
  | nil => exact ⟨s, [], rfl, rfl⟩
  | cons w ws ih =>
    obtain ⟨t, hstep, hv⟩ := step_offer_answers s w
    obtain ⟨u, rs, hws, hlen⟩ := ih t
    exact ⟨u, t.rsp :: rs, hostWords_cons hstep hv hws, by simp [hlen]⟩

theorem hostWords_singleton (s : State) (w : CmdWord) :
    ∃ t, step (present (offer w) s) = .next t ∧ hostWords s [w] = some (t, [t.rsp]) := by
  obtain ⟨t, hstep, hv⟩ := step_offer_answers s w
  exact ⟨t, hstep, hostWords_cons hstep hv (hostWords_nil t)⟩

/-- Settles O47: one word is one answered step; two sequences are each answered in full (`hostWords_answers`), the
second from the state the first left, and the run over both is the two runs (`hostWords_append`). -/
theorem commandsCompleteInOrder : Obligations.CommandsCompleteInOrder := by
  refine ⟨hostWords_singleton, fun s ws ws' => ?_⟩
  obtain ⟨t, rs, hws, hlen⟩ := hostWords_answers s ws
  obtain ⟨u, rs', hws', -⟩ := hostWords_answers t ws'
  exact ⟨t, u, rs, rs', hws, hlen, hws', hostWords_append hws hws'⟩

end Sys2Proof.Machine

/-! PROOFS. The command words (spec/30_encoding.md R70 to R79): the fields make up the word, the decoder answers a command
for its encoding alone, and the rows of R78 as masks and matches. -/

namespace Sys2Proof

/-! The fields of R70. -/

section Fields

variable (op : BitVec 3) (var : BitVec 2) (cse : BitVec 1) (rsv : BitVec 2) (d : Byte) (w : CmdWord)

@[simp] theorem opField_packCmd : opField (packCmd op var cse rsv d) = op := by
  ext i hi
  interval_cases i <;> simp [opField, packCmd, BitVec.getLsbD_of_ge]

@[simp] theorem varField_packCmd : varField (packCmd op var cse rsv d) = var := by
  ext i hi
  interval_cases i <;> simp [varField, packCmd, BitVec.getLsbD_of_ge]

@[simp] theorem caseField_packCmd : caseField (packCmd op var cse rsv d) = cse := by
  ext i hi
  obtain rfl : i = 0 := by omega
  simp [caseField, packCmd, BitVec.getLsbD_of_ge]

@[simp] theorem rsvField_packCmd : rsvField (packCmd op var cse rsv d) = rsv := by
  ext i hi
  interval_cases i <;> simp [rsvField, packCmd, BitVec.getLsbD_of_ge]

@[simp] theorem dataField_packCmd : dataField (packCmd op var cse rsv d) = d := by
  ext i hi
  interval_cases i <;> simp [dataField, packCmd]

theorem packCmd_fields : packCmd (opField w) (varField w) (caseField w) (rsvField w) (dataField w) = w := by
  ext i hi
  interval_cases i <;> simp [opField, varField, caseField, rsvField, dataField, packCmd]

end Fields

/-! The checks of the decoder, and what passes them. -/

theorem checkVarRsv_eq_ok {w : CmdWord} {k : Except Illegal Instr} {i : Instr} :
    checkVarRsv w k = .ok i ↔ varField w = 0 ∧ rsvField w = 0 ∧ k = .ok i := by
  unfold checkVarRsv
  split_ifs <;> simp_all

theorem checkCase_eq_ok {w : CmdWord} {k : Except Illegal Instr} {i : Instr} :
    checkCase w k = .ok i ↔ caseField w = 0 ∧ k = .ok i := by
  unfold checkCase
  split_ifs <;> simp_all

theorem checkData_eq_ok {w : CmdWord} {k : Except Illegal Instr} {i : Instr} :
    checkData w k = .ok i ↔ dataField w = 0 ∧ k = .ok i := by
  unfold checkData
  split_ifs <;> simp_all

theorem decode_encode (i : Instr) : decode (encode i) = .ok i := by
  cases i <;> simp [encode, decode, checkVarRsv, checkCase, checkData]

/-- The fields a branch of the decoder has checked are those the encoder writes, and they are the whole word. -/
theorem encode_of_decode {w : CmdWord} {i : Instr} (h : decode w = .ok i) : encode i = w := by
  refine Eq.trans ?_ (packCmd_fields w)
  unfold decode at h
  split_ifs at h with hEnc hUpper hBegin hChar hEnd
  all_goals simp only [checkVarRsv_eq_ok, checkCase_eq_ok, checkData_eq_ok, Except.ok.injEq] at h
  · obtain ⟨hvar, hrsv, rfl⟩ := h
    simp only [encode, hEnc, hvar, hrsv, hUpper]
  · obtain ⟨hvar, hrsv, rfl⟩ := h
    have hLower : caseField w = 1 := (BitVec.eq_zero_or_eq_one _).resolve_left hUpper
    simp only [encode, hEnc, hvar, hrsv, hLower]
  · obtain ⟨hvar, hrsv, hcase, hdata, rfl⟩ := h
    simp only [encode, hBegin, hvar, hrsv, hcase, hdata]
  · obtain ⟨hvar, hrsv, hcase, rfl⟩ := h
    simp only [encode, hChar, hvar, hrsv, hcase]
  · obtain ⟨hvar, hrsv, hcase, hdata, rfl⟩ := h
    simp only [encode, hEnd, hvar, hrsv, hcase, hdata]

theorem decode_eq_ok_iff {w : CmdWord} {i : Instr} : decode w = .ok i ↔ encode i = w :=
  ⟨encode_of_decode, fun h => h ▸ decode_encode i⟩

theorem encode_injective : Function.Injective encode := fun i j h =>
  Except.ok.inj ((decode_encode i).symm.trans (h ▸ decode_encode j))

/-! The words of R78: a row's fixed bits, with DATA in the low byte. -/

theorem encode_encU (b : Byte) : encode (.encU b) = 0x2000 ||| b.setWidth 16 := rfl

theorem encode_encL (b : Byte) : encode (.encL b) = 0x2400 ||| b.setWidth 16 := rfl

theorem encode_dchar (c : Byte) : encode (.dchar c) = 0x6000 ||| c.setWidth 16 := rfl

theorem setWidth_and_rowMask (b : Byte) : b.setWidth 16 &&& 0xFF00 = 0 := by
  revert b
  decide

theorem rowBits_or_data (w : CmdWord) : w &&& 0xFF00 ||| (w.setWidth 8).setWidth 16 = w := by
  ext i hi
  interval_cases i <;> simp

/-- A word is a row with its data exactly when its high byte is the row and its low byte the data. -/
theorem row_or_data_eq_iff {row w : CmdWord} {d : Byte} (hmask : row &&& 0xFF00 = row) (hlow : row.setWidth 8 = 0#8) :
    row ||| d.setWidth 16 = w ↔ w &&& 0xFF00 = row ∧ d = w.setWidth 8 := by
  constructor
  · rintro rfl
    constructor
    · rw [BitVec.and_or_distrib_right, hmask, setWidth_and_rowMask]
      exact BitVec.or_zero
    · simp [BitVec.setWidth_or, hlow]
  · rintro ⟨rfl, rfl⟩
    exact rowBits_or_data w

theorem decode_eq_encU_iff {w : CmdWord} {d : Byte} :
    decode w = .ok (.encU d) ↔ w &&& 0xFF00 = 0x2000 ∧ d = w.setWidth 8 :=
  decode_eq_ok_iff.trans (row_or_data_eq_iff (by decide) (by decide))

theorem decode_eq_encL_iff {w : CmdWord} {d : Byte} :
    decode w = .ok (.encL d) ↔ w &&& 0xFF00 = 0x2400 ∧ d = w.setWidth 8 :=
  decode_eq_ok_iff.trans (row_or_data_eq_iff (by decide) (by decide))

theorem decode_eq_dchar_iff {w : CmdWord} {d : Byte} :
    decode w = .ok (.dchar d) ↔ w &&& 0xFF00 = 0x6000 ∧ d = w.setWidth 8 :=
  decode_eq_ok_iff.trans (row_or_data_eq_iff (by decide) (by decide))

theorem decode_eq_dbegin_iff {w : CmdWord} : decode w = .ok .dbegin ↔ w = 0x4000 :=
  decode_eq_ok_iff.trans eq_comm

theorem decode_eq_dend_iff {w : CmdWord} : decode w = .ok .dend ↔ w = 0x8000 :=
  decode_eq_ok_iff.trans eq_comm

theorem and_fullMask (w : CmdWord) : w &&& 0xFFFF = w := BitVec.and_allOnes

/-! The command map of R78 against the decoder. -/

theorem covers_iff {p : CmdPattern} {w : CmdWord} : p.covers w = true ↔ w &&& p.mask = p.fixed := by
  simp [CmdPattern.covers]

theorem pattern_mem_commandMap (i : Instr) : i.pattern ∈ commandMap := by
  cases i <;> simp [commandMap, Instr.pattern]

theorem encodedRow (i : Instr) : Laws.EncodedRow.Statement i := by
  cases i with
  | encU b => exact Laws.EncodedRow.encU b
  | encL b => exact Laws.EncodedRow.encL b
  | dbegin => exact Laws.EncodedRow.dbegin
  | dchar c => exact Laws.EncodedRow.dchar c
  | dend => exact Laws.EncodedRow.dend

theorem decode_of_covers {p : CmdPattern} {w : CmdWord} (hp : p ∈ commandMap) (hw : p.covers w = true) :
    ∃ i, decode w = .ok i := by
  rw [covers_iff] at hw
  simp only [commandMap, List.mem_cons, List.not_mem_nil, or_false] at hp
  obtain rfl | rfl | rfl | rfl | rfl := hp
  · exact ⟨_, decode_eq_encU_iff.2 ⟨hw, rfl⟩⟩
  · exact ⟨_, decode_eq_encL_iff.2 ⟨hw, rfl⟩⟩
  · exact ⟨_, decode_eq_dbegin_iff.2 ((and_fullMask w).symm.trans hw)⟩
  · exact ⟨_, decode_eq_dchar_iff.2 ⟨hw, rfl⟩⟩
  · exact ⟨_, decode_eq_dend_iff.2 ((and_fullMask w).symm.trans hw)⟩

theorem wellFormedWord_iff {w : CmdWord} : wellFormedWord w = true ↔ ∃ i, decode w = .ok i := by
  rw [wellFormedWord, List.any_eq_true]
  constructor
  · rintro ⟨p, hp, hw⟩
    exact decode_of_covers hp hw
  · rintro ⟨i, hi⟩
    obtain rfl := encode_of_decode hi
    exact ⟨i.pattern, pattern_mem_commandMap i, (encodedRow i).1⟩

theorem wellFormedWord_eq_false_iff {w : CmdWord} : wellFormedWord w = false ↔ ∃ e, decode w = .error e := by
  rw [← Bool.not_eq_true, wellFormedWord_iff]
  cases decode w <;> simp

/-- No word matches two rows: a word that matches one is a command's, and that matches its own row alone. -/
theorem countP_covers_le_one (w : CmdWord) : commandMap.countP (fun p => p.covers w) ≤ 1 := by
  by_cases hw : ∃ i, decode w = .ok i
  · obtain ⟨i, hi⟩ := hw
    obtain rfl := encode_of_decode hi
    exact (encodedRow i).2.le
  · have hnone : commandMap.countP (fun p => p.covers w) = 0 :=
      List.countP_eq_zero.2 fun _ hp hcov => hw (decode_of_covers hp hcov)
    omega

theorem isEncWord_iff {w : CmdWord} :
    Machine.isEncWord w = true ↔ w &&& 0xFF00 = 0x2000 ∨ w &&& 0xFF00 = 0x2400 := by
  simp [Machine.isEncWord, covers_iff, patternEncU, patternEncL]

/-! The number of the legal words. -/

def allBytes : List Byte := (List.finRange 256).map BitVec.ofFin

theorem mem_allBytes (b : Byte) : b ∈ allBytes := List.mem_map.2 ⟨b.toFin, List.mem_finRange _, rfl⟩

theorem allBytes_nodup : allBytes.Nodup := (List.nodup_finRange 256).map fun _ _ h => BitVec.ofFin.inj h

theorem length_allBytes : allBytes.length = 256 := by simp [allBytes]

def allInstrs : List Instr :=
  allBytes.map .encU ++ (allBytes.map .encL ++ (allBytes.map .dchar ++ [.dbegin, .dend]))

theorem mem_allInstrs (i : Instr) : i ∈ allInstrs := by
  cases i <;> simp [allInstrs, mem_allBytes]

theorem allInstrs_nodup : allInstrs.Nodup := by
  have hU : (allBytes.map Instr.encU).Nodup := allBytes_nodup.map fun _ _ => Instr.encU.inj
  have hL : (allBytes.map Instr.encL).Nodup := allBytes_nodup.map fun _ _ => Instr.encL.inj
  have hC : (allBytes.map Instr.dchar).Nodup := allBytes_nodup.map fun _ _ => Instr.dchar.inj
  simp [allInstrs, List.nodup_append', List.disjoint_left, hU, hL, hC]

theorem length_allInstrs : allInstrs.length = 770 := by simp [allInstrs, length_allBytes]

def legalWords : List CmdWord := allInstrs.map encode

theorem mem_legalWords_iff {w : CmdWord} : w ∈ legalWords ↔ ∃ i, decode w = .ok i := by
  simp [legalWords, mem_allInstrs, decode_eq_ok_iff]

theorem legalWords_nodup : legalWords.Nodup := allInstrs_nodup.map encode_injective

theorem length_legalWords : legalWords.length = 770 := by rw [legalWords, List.length_map, length_allInstrs]

theorem decode_reservedVariant {w : CmdWord} (hop : opField w = 0b001) (hvar : varField w ≠ 0) :
    decode w = .error .reservedVariant := by
  rw [decode, if_pos hop, checkVarRsv, if_pos hvar]

/-- Settles O13: each pattern by the words the encoder makes (`decode_eq_ok_iff`), the count by listing the commands. -/
theorem legalWordsAreTheFivePatterns : Obligations.LegalWordsAreTheFivePatterns := by
  refine ⟨fun _ _ => decode_eq_encU_iff, fun _ _ => decode_eq_encL_iff, fun w => ?_, fun _ _ => decode_eq_dchar_iff,
    fun w => ?_, countP_covers_le_one, ⟨legalWords, legalWords_nodup, length_legalWords, fun _ => mem_legalWords_iff⟩,
    fun _ hop hvar => ⟨_, decode_reservedVariant hop hvar⟩⟩
  · rw [and_fullMask]
    exact decode_eq_dbegin_iff
  · rw [and_fullMask]
    exact decode_eq_dend_iff

end Sys2Proof

/-! PROOFS. The step on an accepted word (spec/30_encoding.md R80 to R88): the dispatch of R87, what goes into it, and the
fields of the response. -/

namespace Sys2Proof.Machine

/-! The step by the rows of R78. -/

section Rows

variable {s : State} {w : CmdWord}

theorem step_encURow (h : w &&& 0xFF00 = 0x2000) : step (present (offer w) s) = exec (.encU (w.setWidth 8)) s :=
  step_offer_ok s w _ (decode_eq_encU_iff.2 ⟨h, rfl⟩)

theorem step_encLRow (h : w &&& 0xFF00 = 0x2400) : step (present (offer w) s) = exec (.encL (w.setWidth 8)) s :=
  step_offer_ok s w _ (decode_eq_encL_iff.2 ⟨h, rfl⟩)

theorem step_dbeginRow (h : w = 0x4000) : step (present (offer w) s) = exec .dbegin s :=
  step_offer_ok s w _ (decode_eq_dbegin_iff.2 h)

theorem step_dcharRow (h : w &&& 0xFF00 = 0x6000) : step (present (offer w) s) = exec (.dchar (w.setWidth 8)) s :=
  step_offer_ok s w _ (decode_eq_dchar_iff.2 ⟨h, rfl⟩)

theorem step_dendRow (h : w = 0x8000) : step (present (offer w) s) = exec .dend s :=
  step_offer_ok s w _ (decode_eq_dend_iff.2 h)

theorem step_noRow (hU : w &&& 0xFF00 ≠ 0x2000) (hL : w &&& 0xFF00 ≠ 0x2400) (hB : w ≠ 0x4000)
    (hC : w &&& 0xFF00 ≠ 0x6000) (hE : w ≠ 0x8000) : step (present (offer w) s) = .next (illegal s) := by
  cases hd : decode w with
  | error e => exact step_offer_error s w e hd
  | ok i =>
    cases i with
    | encU b => exact absurd (decode_eq_encU_iff.1 hd).1 hU
    | encL b => exact absurd (decode_eq_encL_iff.1 hd).1 hL
    | dbegin => exact absurd (decode_eq_dbegin_iff.1 hd) hB
    | dchar c => exact absurd (decode_eq_dchar_iff.1 hd).1 hC
    | dend => exact absurd (decode_eq_dend_iff.1 hd) hE

end Rows

/-! What an accepted word answers depends on the decoder registers alone. -/

/-- Two states with the same decoder registers and the same response of an accepted word. -/
def SameAnswer (t t' : State) : Prop :=
  decoderRegs t = decoderRegs t' ∧ t.rspValid = true ∧ t'.rspValid = true ∧ t.rsp = t'.rsp

theorem sameAnswer_respond {s s' : State} {r r' : Response} (hregs : decoderRegs s = decoderRegs s') (hr : r = r') :
    SameAnswer (respond r s) (respond r' s') := ⟨hregs, rfl, rfl, congrArg Response.pack hr⟩

theorem execDchar_sameAnswer (c : Byte) {s s' : State} (h : decoderRegs s = decoderRegs s') :
    ∃ t t', execDchar c s = .next t ∧ execDchar c s' = .next t' ∧ SameAnswer t t' := by
  obtain ⟨hhi, hhv, herr, hepos⟩ : s.hi = s'.hi ∧ s.hv = s'.hv ∧ s.err = s'.err ∧ s.epos = s'.epos := by
    simpa using h
  obtain ⟨he, hs⟩ | ⟨he, hok, hs⟩ | ⟨he, hok, hv, hs⟩ | ⟨he, hok, hv, hs⟩ := execDchar_cases c s
  · have hs' : execDchar c s' = .next (repeatError s') := by simp [execDchar, ← herr, he]
    exact ⟨_, _, hs, hs', sameAnswer_respond h (by rw [hepos, hhv])⟩
  · have hs' : execDchar c s' = .next (takeInvalid (validate (fold c)).ip s') := by
      simp [execDchar, ← herr, he, hok]
    exact ⟨_, _, hs, hs', sameAnswer_respond (by simp [hhi, hhv]) (by rw [hhv])⟩
  · have hs' : execDchar c s' = .next (takeLowNibble (validate (fold c)).v s') := by
      simp [execDchar, ← herr, he, hok, ← hhv, hv]
    exact ⟨_, _, hs, hs', sameAnswer_respond (by simp [herr, hepos]) (by rw [hhi])⟩
  · have hs' : execDchar c s' = .next (takeHighNibble (validate (fold c)).v s') := by
      simp [execDchar, ← herr, he, hok, ← hhv, hv]
    exact ⟨_, _, hs, hs', sameAnswer_respond (by simp [herr, hepos]) rfl⟩

theorem exec_sameAnswer (i : Instr) {s s' : State} (h : decoderRegs s = decoderRegs s') :
    ∃ t t', exec i s = .next t ∧ exec i s' = .next t' ∧ SameAnswer t t' := by
  obtain ⟨-, hhv, herr, hepos⟩ : s.hi = s'.hi ∧ s.hv = s'.hv ∧ s.err = s'.err ∧ s.epos = s'.epos := by
    simpa using h
  cases i with
  | encU b => exact ⟨_, _, rfl, rfl, sameAnswer_respond h (by rw [hhv])⟩
  | encL b => exact ⟨_, _, rfl, rfl, sameAnswer_respond h (by rw [hhv])⟩
  | dbegin => exact ⟨_, _, rfl, rfl, sameAnswer_respond rfl rfl⟩
  | dchar c => exact execDchar_sameAnswer c h
  | dend =>
    have hend : endOfTransaction s = endOfTransaction s' := by simp only [endOfTransaction, hhv, herr, hepos]
    exact ⟨_, _, rfl, rfl, sameAnswer_respond rfl hend⟩

theorem step_offer_sameAnswer (w : CmdWord) {s s' : State} (h : decoderRegs s = decoderRegs s') :
    ∃ t t', step (present (offer w) s) = .next t ∧ step (present (offer w) s') = .next t' ∧ SameAnswer t t' := by
  cases hd : decode w with
  | ok i =>
    rw [step_offer_ok s w i hd, step_offer_ok s' w i hd]
    exact exec_sameAnswer i h
  | error e =>
    have hhv : s.hv = s'.hv := congrArg (fun r => r.2.1) h
    exact ⟨_, _, step_offer_error s w e hd, step_offer_error s' w e hd, sameAnswer_respond h (by rw [hhv])⟩

/-- Settles O6: the step by the rows of R78, each selected by its mask and match, and the answer's arguments. -/
theorem stepIsTheDispatchByMaskAndMatch : Obligations.StepIsTheDispatchByMaskAndMatch := by
  refine ⟨fun s w => ?_, fun s s' w => step_offer_sameAnswer w⟩
  split_ifs with hU hL hB hC hE
  · exact step_encURow hU
  · exact step_encLRow hL
  · exact step_dbeginRow hB
  · exact step_dcharRow hC
  · exact step_dendRow hE
  · exact step_noRow hU hL hB hC hE

/-! The answer to an illegal word (R86). -/

theorem illegal_rsp_literal (s : State) :
    Response.pack ⟨0, 0, 0, .illegalCmd, 0, s.hv⟩ = if s.hv then 0x040C0000 else 0x000C0000 := by
  cases s.hv <;> rfl

/-- Settles O15: a refused word is answered by `illegal`, whose two response words are computed. -/
theorem illegalWordIsAnsweredAndChangesNothing : Obligations.IllegalWordIsAnsweredAndChangesNothing :=
  ⟨step_offer_error, illegal_rsp_literal, step_offer_error State.reset 0x0000 .reservedOp rfl⟩

/-! Every accepted word is answered with a packed response (R80). -/

theorem exec_eq_respond (i : Instr) (s : State) : ∃ r u, exec i s = .next (respond r u) := by
  cases i with
  | encU b => exact ⟨_, s, rfl⟩
  | encL b => exact ⟨_, s, rfl⟩
  | dbegin => exact ⟨_, clearDecoder s, rfl⟩
  | dend => exact ⟨_, clearDecoder s, rfl⟩
  | dchar c =>
    obtain ⟨-, h⟩ | ⟨-, -, h⟩ | ⟨-, -, -, h⟩ | ⟨-, -, -, h⟩ := execDchar_cases c s
    all_goals exact ⟨_, _, h⟩

theorem step_offer_eq_respond (s : State) (w : CmdWord) :
    ∃ r u, step (present (offer w) s) = .next (respond r u) := by
  cases hd : decode w with
  | ok i =>
    rw [step_offer_ok s w i hd]
    exact exec_eq_respond i s
  | error e => exact ⟨_, s, step_offer_error s w e hd⟩

/-- Settles O16: the formula is the definition of packing, and each field reads back by its own lemma. -/
theorem responseWordLayout : Obligations.ResponseWordLayout := by
  refine ⟨fun r => ⟨rfl, rspOut0_pack r, rspOut1_pack r, rspNout_pack r, rspStatus_pack r, rspErrpos_pack r,
    rspPend_pack r, rspZero_pack r⟩, fun s w => ?_⟩
  obtain ⟨r, u, hstep⟩ := step_offer_eq_respond s w
  exact ⟨respond r u, r, hstep, respond_rspValid u r, respond_rsp u r⟩

/-! The output elements (R81, R82). -/

theorem hiNibble_setWidth (w : CmdWord) : hiNibble (w.setWidth 8) = w.extractLsb' 4 4 := by
  ext i hi
  interval_cases i <;> simp [hiNibble]

theorem loNibble_setWidth (w : CmdWord) : loNibble (w.setWidth 8) = w.extractLsb' 0 4 := by
  ext i hi
  interval_cases i <;> simp [loNibble]

theorem outputs_encodeByte (k : LetterCase) (w : CmdWord) (s : State) :
    rspNout (encodeByte k (w.setWidth 8) s).rsp = 2 ∧
      rspOutputs (encodeByte k (w.setWidth 8) s).rsp =
        [rspOut0 (encodeByte k (w.setWidth 8) s).rsp, rspOut1 (encodeByte k (w.setWidth 8) s).rsp] ∧
      rspOut0 (encodeByte k (w.setWidth 8) s).rsp = romRead k (w.extractLsb' 4 4) ∧
      rspOut1 (encodeByte k (w.setWidth 8) s).rsp = romRead k (w.extractLsb' 0 4) := by
  simp [encodeByte, rspOutputs_pack, hiNibble_setWidth, loNibble_setWidth]

theorem outputs_takeLowNibble (v : Nibble) (s : State) :
    rspNout (takeLowNibble v s).rsp = 1 ∧ rspOutputs (takeLowNibble v s).rsp = [rspOut0 (takeLowNibble v s).rsp] ∧
      rspOut0 (takeLowNibble v s).rsp = merge s.hi v ∧ rspOut1 (takeLowNibble v s).rsp = 0 := by
  simp [takeLowNibble, rspOutputs_pack]

theorem outputs_statusResponse (st : Status) (p : EPos) (pend : Bool) :
    rspNout (statusResponse st p pend).pack = 0 ∧ rspOutputs (statusResponse st p pend).pack = [] ∧
      rspOut0 (statusResponse st p pend).pack = 0 ∧ rspOut1 (statusResponse st p pend).pack = 0 := by
  simp [statusResponse, rspOutputs_pack]

theorem endOfTransaction_eq_statusResponse (s : State) : ∃ st p, endOfTransaction s = statusResponse st p false := by
  unfold endOfTransaction
  split_ifs <;> exact ⟨_, _, rfl⟩

/-- A word that is no ENC and completes no byte is answered without an output element. -/
theorem step_noOutput {s : State} {w : CmdWord} (hEnc : ¬(w &&& 0xFF00 = 0x2000 ∨ w &&& 0xFF00 = 0x2400))
    (hByte : ¬(w &&& 0xFF00 = 0x6000 ∧ s.err = false ∧ s.hv = true ∧ (validate (fold (w.setWidth 8))).ok = true)) :
    ∃ st p pend u, step (present (offer w) s) = .next (respond (statusResponse st p pend) u) := by
  obtain ⟨hU, hL⟩ := not_or.1 hEnc
  by_cases hB : w = 0x4000
  · exact ⟨_, _, _, _, step_dbeginRow hB⟩
  by_cases hE : w = 0x8000
  · obtain ⟨st, p, hend⟩ := endOfTransaction_eq_statusResponse s
    exact ⟨st, p, false, clearDecoder s, hend ▸ step_dendRow hE⟩
  by_cases hC : w &&& 0xFF00 = 0x6000
  · rw [step_dcharRow hC, exec]
    obtain ⟨-, h⟩ | ⟨-, -, h⟩ | ⟨herr, hok, hhv, -⟩ | ⟨-, -, -, h⟩ := execDchar_cases (w.setWidth 8) s
    · exact ⟨_, _, _, _, h⟩
    · exact ⟨_, _, _, _, h⟩
    · exact absurd ⟨hC, herr, hhv, hok⟩ hByte
    · exact ⟨_, _, _, _, h⟩
  · exact ⟨_, _, _, _, step_noRow hU hL hB hC hE⟩

/-- Settles O17: ENC of either case, the character that completes a byte, and every other word (`step_noOutput`). -/
theorem outputElementsByCommand : Obligations.OutputElementsByCommand := by
  intro s w
  by_cases hEnc : w &&& 0xFF00 = 0x2000 ∨ w &&& 0xFF00 = 0x2400
  · simp only [if_pos hEnc]
    obtain hU | hL := hEnc
    · simp only [if_pos hU]
      exact ⟨_, step_encURow hU, outputs_encodeByte .upper w s⟩
    · have hU : w &&& 0xFF00 ≠ 0x2000 := fun hU => absurd (hL.symm.trans hU) (by decide)
      simp only [if_neg hU]
      exact ⟨_, step_encLRow hL, outputs_encodeByte .lower w s⟩
  simp only [if_neg hEnc]
  by_cases hByte : w &&& 0xFF00 = 0x6000 ∧ s.err = false ∧ s.hv = true ∧ (validate (fold (w.setWidth 8))).ok = true
  · simp only [if_pos hByte]
    obtain ⟨hC, herr, hhv, hok⟩ := hByte
    have hstep : step (present (offer w) s) = .next (takeLowNibble (validate (fold (w.setWidth 8))).v s) := by
      rw [step_dcharRow hC]
      simp [exec, execDchar, herr, hhv, hok]
    exact ⟨_, hstep, outputs_takeLowNibble _ s⟩
  · simp only [if_neg hByte]
    obtain ⟨st, p, pend, u, hstep⟩ := step_noOutput hEnc hByte
    exact ⟨_, hstep, outputs_statusResponse st p pend⟩

/-! PEND (R84). -/

theorem rspPend_of_exec {i : Instr} {s t : State} (h : exec i s = .next t) : rspPend t.rsp = t.hv := by
  obtain ⟨b, -, rfl⟩ | ⟨b, -, rfl⟩ | ⟨-, rfl⟩ | ⟨c, -, hchar⟩ | ⟨-, rfl⟩ := exec_cases h
  · exact rspPend_pack _
  · exact rspPend_pack _
  · exact rspPend_pack _
  · obtain ⟨-, rfl⟩ | ⟨-, -, rfl⟩ | ⟨-, -, -, rfl⟩ | ⟨-, -, -, rfl⟩ := hchar
    all_goals exact rspPend_pack _
  · obtain ⟨st, p, hend⟩ := endOfTransaction_eq_statusResponse s
    rw [hend]
    exact rspPend_pack _

theorem hv_of_step_encWord {s t : State} {w : CmdWord} (hw : isEncWord w = true)
    (h : step (present (offer w) s) = .next t) : t.hv = s.hv := by
  obtain hU | hL := isEncWord_iff.1 hw
  · obtain rfl := Host.Outcome.next.inj ((step_encURow hU).symm.trans h)
    rfl
  · obtain rfl := Host.Outcome.next.inj ((step_encLRow hL).symm.trans h)
    rfl

/-- Settles O19: PEND by the command (`rspPend_of_exec`), and HV after ENC and illegal words by their next states. -/
theorem pendIsHvAfterTheCommand : Obligations.PendIsHvAfterTheCommand := by
  intro s w
  cases hd : decode w with
  | error e => exact ⟨illegal s, step_offer_error s w e hd, rfl, rspPend_pack _, fun _ => rfl⟩
  | ok i =>
    obtain ⟨t, hstep, hvalid⟩ := step_offer_answers s w
    refine ⟨t, hstep, hvalid, rspPend_of_exec ((step_offer_ok s w i hd).symm.trans hstep), ?_⟩
    rintro (hEnc | hIllegal)
    · exact hv_of_step_encWord hEnc hstep
    · have hLegal : wellFormedWord w = true := wellFormedWord_iff.2 ⟨i, hd⟩
      simp [hLegal] at hIllegal

end Sys2Proof.Machine

/-! PROOFS. The pseudo-instructions of the assembler (spec/30_encoding.md R92). -/

namespace Sys2Proof.Machine

/-- Operands whose numbers are bytes are read as those bytes. -/
theorem mapM_bits_of_values {α : Type} (xs : List α) (operand : α → Operand) (byte : α → Byte)
    (h : ∀ x ∈ xs, (operand x).value = (byte x).toNat) :
    (xs.map operand).mapM (Operand.bits 8) = some (xs.map byte) := by
  induction xs with
  | nil => rfl
  | cons x xs ih =>
    obtain ⟨hx, hxs⟩ := List.forall_mem_cons.1 h
    simp [List.mapM_cons, bits_of_value _ _ hx, ih hxs]

theorem bytes_list_hex (bs : List Byte) : SeqOperand.bytes (.list (bs.map fun b => .hex b.toNat)) = some bs :=
  (mapM_bits_of_values bs _ id fun _ _ => rfl).trans (by rw [List.map_id])

theorem bytes_string {cs : List Char} (h : ∀ c ∈ cs, c.toNat < 0x100) :
    SeqOperand.bytes (.string cs) = some (cs.map fun c => BitVec.ofNat 8 c.toNat) :=
  mapM_bits_of_values cs _ _ fun c hc => by
    simpa [Operand.value] using (Nat.mod_eq_of_lt (h c hc)).symm

/-- A row with a character's code as its data. -/
theorem map_row_or_charCode (row : CmdWord) {cs : List Char} (h : ∀ c ∈ cs, c.toNat < 0x100) :
    (cs.map fun c => row ||| (BitVec.ofNat 8 c.toNat).setWidth 16) =
      cs.map fun c => row ||| BitVec.ofNat 16 c.toNat := by
  refine List.map_congr_left fun c hc => congrArg (row ||| ·) ?_
  have hcode := h c hc
  apply BitVec.eq_of_toNat_eq
  simp only [BitVec.toNat_setWidth, BitVec.toNat_ofNat]
  omega

theorem map_encode_encStr_upper (bs : List Byte) :
    (encStr .upper bs).map encode = bs.map fun b => 0x2000 ||| b.setWidth 16 := List.map_map

theorem map_encode_encStr_lower (bs : List Byte) :
    (encStr .lower bs).map encode = bs.map fun b => 0x2400 ||| b.setWidth 16 := List.map_map

theorem map_encode_dstr (bs : List Byte) :
    (dstr bs).map encode = 0x4000 :: (bs.map fun b => 0x6000 ||| b.setWidth 16) ++ [0x8000] := by
  simp [dstr, Function.comp_def, encode_dchar, decode_eq_ok_iff.1 decode_dbeginWord,
    decode_eq_ok_iff.1 decode_dendWord]

theorem assemble_encStrU {q : SeqOperand} {bs : List Byte} (h : q.bytes = some bs) :
    assemble (.encStrU q) = some (bs.map fun b => 0x2000 ||| b.setWidth 16) := by
  rw [assemble, h, Option.map_some, map_encode_encStr_upper]

theorem assemble_encStrL {q : SeqOperand} {bs : List Byte} (h : q.bytes = some bs) :
    assemble (.encStrL q) = some (bs.map fun b => 0x2400 ||| b.setWidth 16) := by
  rw [assemble, h, Option.map_some, map_encode_encStr_lower]

theorem assemble_dstr {cs : List Char} {bs : List Byte} (h : SeqOperand.bytes (.string cs) = some bs) :
    assemble (.dstr cs) = some (0x4000 :: (bs.map fun b => 0x6000 ||| b.setWidth 16) ++ [0x8000]) := by
  rw [assemble, h, Option.map_some, map_encode_dstr]

/-- Settles O56: a list or a string is read as its bytes, and each expansion maps them to the words of its row. -/
theorem pseudoInstructionExpansions : Obligations.PseudoInstructionExpansions := by
  refine ⟨fun bs => ⟨assemble_encStrU (bytes_list_hex bs), assemble_encStrL (bytes_list_hex bs)⟩, fun cs hascii => ?_⟩
  have hcodes : ∀ c ∈ cs, c.toNat < 0x100 := fun c hc => (hascii c hc).trans (by decide)
  have hbytes := bytes_string hcodes
  rw [assemble_dstr hbytes, assemble_encStrU hbytes, assemble_encStrL hbytes]
  simp only [List.map_map, Function.comp_def, map_row_or_charCode _ hcodes, and_self]

end Sys2Proof.Machine

/-! PROOFS. The encoder (spec/40_encoder.md R100 to R112): the nibbles of a byte, the response of ENC, and the encode
operation as its closed form. -/

namespace Sys2Proof.Machine

/-! The nibbles of a byte (R100, R103). -/

theorem hiNibble_eq_extractLsb' (b : Byte) : hiNibble b = b.extractLsb' 4 4 := by
  ext i hi
  simp [hiNibble]

theorem loNibble_eq_extractLsb' (b : Byte) : loNibble b = b.extractLsb' 0 4 := by
  ext i hi
  interval_cases i <;> simp [loNibble]

theorem toNat_ushiftRight_four_le (b : Byte) : (b >>> 4).toNat ≤ 15 := by
  rw [BitVec.toNat_ushiftRight, Nat.shiftRight_eq_div_pow]
  omega

theorem toNat_and_lowMask_le (b : Byte) : (b &&& 0x0F).toNat ≤ 15 := by
  rw [BitVec.toNat_and]
  exact Nat.and_le_right

theorem toNat_hiNibble (b : Byte) : (hiNibble b).toNat = (b >>> 4).toNat :=
  Nat.mod_eq_of_lt (Nat.lt_succ_of_le (toNat_ushiftRight_four_le b))

theorem toNat_loNibble (b : Byte) : (loNibble b).toNat = (b &&& 0x0F).toNat :=
  Nat.mod_eq_of_lt (Nat.lt_succ_of_le (toNat_and_lowMask_le b))

theorem nibbles_or_eq (b : Byte) : ((b >>> 4) <<< 4) ||| (b &&& 0x0F) = b := by
  ext i hi
  interval_cases i <;> simp

/-- Settles O27: the shift and the mask leave four bits, so cutting to a nibble changes neither value. -/
theorem nibbleSplitLosesNothing : Obligations.NibbleSplitLosesNothing := fun b =>
  ⟨toNat_ushiftRight_four_le b, toNat_and_lowMask_le b, toNat_hiNibble b, toNat_loNibble b, nibbles_or_eq b⟩

/-- Settles O24: each command is the datapath with its ROM, and the nibbles are the bits 7 to 4 and 3 to 0. -/
theorem encodeDatapath : Obligations.EncodeDatapath := by
  intro b s
  rw [← hiNibble_eq_extractLsb', ← loNibble_eq_extractLsb']
  exact ⟨rfl, rfl⟩

/-! The response of ENC, by its word (R101, R102). -/

@[simp] theorem rspOutputs_encodeByte (k : LetterCase) (b : Byte) (s : State) :
    rspOutputs (encodeByte k b s).rsp = [romRead k (hiNibble b), romRead k (loNibble b)] := by
  simp [encodeByte, rspOutputs_pack]

theorem decoderRegs_encodeByte (k : LetterCase) (b : Byte) (s : State) :
    decoderRegs (encodeByte k b s) = decoderRegs s := rfl

/-- What a word that runs the datapath answers, field by field. -/
theorem answer_of_step_encodeByte {k : LetterCase} {w : CmdWord} {s : State}
    (h : step (present (offer w) s) = .next (encodeByte k (w.setWidth 8) s)) :
    ∃ t, step (present (offer w) s) = .next t ∧
      rspOut0 t.rsp = romRead k (w.extractLsb' 4 4) ∧ rspOut1 t.rsp = romRead k (w.extractLsb' 0 4) ∧
      rspNout t.rsp = 2 ∧ rspStatus t.rsp = 0 ∧ rspErrpos t.rsp = 0 ∧ rspPend t.rsp = s.hv ∧
      decoderRegs t = decoderRegs s := by
  obtain ⟨hnout, -, hout0, hout1⟩ := outputs_encodeByte k w s
  exact ⟨_, h, hout0, hout1, hnout, rspStatus_pack _, rspErrpos_pack _, rspPend_pack _,
    decoderRegs_encodeByte k _ s⟩

/-- Settles O25: the row's step is the datapath with ROM_U; the corner cases are the output elements of their bytes. -/
theorem encUWord : Obligations.EncUWord := by
  refine ⟨fun s w hU => answer_of_step_encodeByte (step_encURow hU), fun s => ?_, step_encURow rfl⟩
  exact ⟨_, _, _, _, rfl, rspOutputs_encodeByte .upper 0x00 s, rfl, rspOutputs_encodeByte .upper 0xFF s,
    rfl, rspOutputs_encodeByte .upper 0x0A s, rfl, rspOutputs_encodeByte .upper 0xA0 s⟩

/-- The two ROMs agree on entries 0 to 9 (10_state.md R24, R25). -/
theorem romRead_lower_eq_upper_of_digit {i : Nibble} (hi : i ≤ 9) : romRead .lower i = romRead .upper i := by
  rw [romRead_lower_closedForm, romRead_upper_closedForm, if_pos hi, if_pos hi]

theorem encodeByte_lower_eq_upper_of_digits {b : Byte} (hhi : hiNibble b ≤ 9) (hlo : loNibble b ≤ 9) (s : State) :
    encodeByte .lower b s = encodeByte .upper b s := by
  simp only [encodeByte, romRead_lower_eq_upper_of_digit hhi, romRead_lower_eq_upper_of_digit hlo]

/-- Settles O26: as for ENC.U with ROM_L, and the two ROMs agree on the digits. -/
theorem encLWord : Obligations.EncLWord := by
  refine ⟨fun s w hL => answer_of_step_encodeByte (step_encLRow hL), fun s => ?_, fun s b hhi hlo =>
    congrArg Host.Outcome.next (encodeByte_lower_eq_upper_of_digits hhi hlo s), step_encLRow rfl⟩
  exact ⟨_, _, _, rfl, rspOutputs_encodeByte .lower 0x00 s, rfl, rspOutputs_encodeByte .lower 0xFF s,
    rfl, rspOutputs_encodeByte .lower 0x0A s⟩

/-! The encode operation (R110). -/

/-- The ENC command of a case. -/
def encInstr : LetterCase → Byte → Instr
  | .upper => .encU
  | .lower => .encL

theorem encStr_eq_map (k : LetterCase) (bs : List Byte) : encStr k bs = bs.map (encInstr k) := by
  cases k <;> rfl

theorem exec_encInstr (k : LetterCase) (b : Byte) (s : State) :
    exec (encInstr k b) s = .next (encodeByte k b s) := by
  cases k <;> rfl

theorem step_offer_encode (i : Instr) (s : State) : step (present (offer (encode i)) s) = exec i s :=
  step_offer_ok s _ i (decode_encode i)

theorem hostCommands_cons {s t u : State} {i : Instr} {is : List Instr} {rs : List RspWord}
    (h : exec i s = .next t) (hv : t.rspValid = true) (his : hostCommands t is = some (u, rs)) :
    hostCommands s (i :: is) = some (u, t.rsp :: rs) :=
  hostWords_cons ((step_offer_encode i s).trans h) hv his

/-- The run of ENCSTR: each byte is encoded in the state the one before left, and since ENC writes no decoder register
its response is the one it would get in the state at the start. -/
theorem hostCommands_encStr (s : State) (k : LetterCase) (bs : List Byte) :
    hostCommands s (encStr k bs) =
      some (bs.foldl (fun u b => encodeByte k b u) s, bs.map fun b => (encodeByte k b s).rsp) := by
  rw [encStr_eq_map]
  induction bs generalizing s with
  | nil => rfl
  | cons b bs ih => exact hostCommands_cons (exec_encInstr k b s) rfl (ih (encodeByte k b s))

theorem hostEncode_eq_encodeClosed (s : State) (k : LetterCase) (bs : List Byte) :
    hostEncode s k bs = some (encodeClosed k bs) := by
  simp [hostEncode, hostCommands_encStr, encodeClosed, List.flatMap_map]

/-- Settles O28: the run of ENCSTR answers each byte with its two ROM entries (`hostCommands_encStr`,
`rspOutputs_encodeByte`), and of no byte there is no command. -/
theorem encodeOperationIsItsClosedForm : Obligations.EncodeOperationIsItsClosedForm :=
  ⟨hostEncode_eq_encodeClosed, fun s k => ⟨hostEncode_eq_encodeClosed s k [], hostCommands_encStr s k []⟩⟩

/-! The source's vectors (R112), on the closed form. -/

theorem encodeClosed_append (k : LetterCase) (bs cs : List Byte) :
    encodeClosed k (bs ++ cs) = encodeClosed k bs ++ encodeClosed k cs := List.flatMap_append

theorem encodeClosed_digits :
    encodeClosed .upper [0x30, 0x31, 0x32, 0x33, 0x34, 0x35, 0x36, 0x37, 0x38, 0x39] =
      "30313233343536373839".toList.map fun c => BitVec.ofNat 8 c.toNat := by
  decide

/-- The source writes `n` before `m`, in the argument and in the result. -/
theorem encodeClosed_alphabet :
    encodeClosed .upper ("abcdefghijklnmopqrstuvwxyz".toList.map fun c => BitVec.ofNat 8 c.toNat) =
      "6162636465666768696A6B6C6E6D6F707172737475767778797A".toList.map fun c => BitVec.ofNat 8 c.toNat := by
  decide

/-- A byte 0x0A inside a sequence gives "0A" between what the bytes before and after it give. -/
theorem encodeClosed_newline_inside (bs cs : List Byte) :
    encodeClosed .upper (bs ++ 0x0A :: cs) = encodeClosed .upper bs ++ [0x30, 0x41] ++ encodeClosed .upper cs := by
  rw [← List.singleton_append, encodeClosed_append, encodeClosed_append, ← List.append_assoc]
  rfl

/-- Settles O31: encode is its closed form in every state, and the closed form is computed on the source's strings. -/
theorem encodeVectorsOfTheSource : Obligations.EncodeVectorsOfTheSource := by
  intro s
  simp only [hostEncode_eq_encodeClosed]
  exact ⟨congrArg some encodeClosed_digits, congrArg some encodeClosed_alphabet, rfl,
    fun bs cs => ⟨_, _, rfl, rfl, congrArg some (encodeClosed_newline_inside bs cs)⟩⟩

end Sys2Proof.Machine

/-! PROOFS. What the decoder computes from a character (spec/41_decoder.md R131 to R135, R141): the fold, the validator,
the insertion point and the nibble merger. -/

namespace Sys2Proof.Machine

/-! The fold (R131). -/

theorem fold_of_upper {c : Byte} (h : 0x41 ≤ c ∧ c ≤ 0x5A) : fold c = c + 0x20 := if_pos h

theorem fold_of_not_upper {c : Byte} (h : ¬(0x41 ≤ c ∧ c ≤ 0x5A)) : fold c = c := if_neg h

theorem toNat_fold (c : Byte) :
    (fold c).toNat = if 0x41 ≤ c.toNat ∧ c.toNat ≤ 0x5A then c.toNat + 0x20 else c.toNat := by
  split_ifs with h
  · rw [fold_of_upper (by bv_omega)]
    bv_omega
  · rw [fold_of_not_upper (by bv_omega)]

/-- A lowered letter lies above 'Z', so a second fold leaves it. -/
theorem fold_fold (c : Byte) : fold (fold c) = fold c := by
  by_cases h : 0x41 ≤ c ∧ c ≤ 0x5A
  · rw [fold_of_upper h, fold_of_not_upper (by bv_omega)]
  · rw [fold_of_not_upper h, fold_of_not_upper h]

/-- A letter and its other case fold to the same code; any other code is its own other case. -/
theorem fold_swapCase (c : Byte) :
    fold (if 0x41 ≤ c ∧ c ≤ 0x5A then c + 0x20 else if 0x61 ≤ c ∧ c ≤ 0x7A then c - 0x20 else c) = fold c := by
  split_ifs with hupper hlower
  · rw [fold_of_upper hupper, fold_of_not_upper (by bv_omega)]
  · rw [fold_of_upper (by bv_omega), fold_of_not_upper hupper]
    bv_omega
  · rfl

/-! The insertion point (R134). -/

theorem toNat_insertionPoint_eq_countP (f : Byte) :
    (insertionPoint f).toNat = romL.toList.countP fun e => decide (e < f) := by
  have hle : romL.toList.countP (fun e => decide (e < f)) ≤ 16 := List.countP_le_length
  rw [insertionPoint, BitVec.toNat_ofNat]
  omega

theorem romL_toList_eq_map_get : romL.toList = (List.finRange 16).map romL.get := by decide

theorem toNat_insertionPoint (f : Byte) :
    (insertionPoint f).toNat = (Finset.univ.filter fun i : Fin 16 => romL.get i < f).card := by
  rw [toNat_insertionPoint_eq_countP, romL_toList_eq_map_get, List.countP_map, List.countP_eq_length_filter]
  rfl

/-- A place that splits the table into smaller and greater entries has exactly the entries before it below the code. -/
theorem toNat_insertionPoint_of_split {f : Byte} {p : Nat} (hp : p ≤ 16)
    (hbelow : ∀ i : Fin 16, i.val < p → romL.get i < f) (habove : ∀ i : Fin 16, p ≤ i.val → f < romL.get i) :
    (insertionPoint f).toNat = p := by
  have hmem (i : Fin 16) : romL.get i < f ↔ i.val < p :=
    ⟨fun h => not_le.1 fun hi => BitVec.lt_asymm h (habove i hi), hbelow i⟩
  simp only [toNat_insertionPoint, hmem, Fin.card_filter_val_lt]
  omega

theorem insertionPoint_of_below_digits {f : Byte} (h : f < 0x30) : insertionPoint f = 0 := by
  have hfirst : ∀ i, 0x30 ≤ romL.get i := by decide
  refine BitVec.eq_of_toNat_eq (toNat_insertionPoint_of_split (p := 0) (by decide) (by simp) fun i _ => ?_)
  have := hfirst i
  bv_omega

theorem insertionPoint_between {f : Byte} (hlow : 0x3A ≤ f) (hhigh : f ≤ 0x60) : insertionPoint f = 10 := by
  have hdigits : ∀ i : Fin 16, i.val < 10 → romL.get i < 0x3A := by decide
  have hletters : ∀ i : Fin 16, 10 ≤ i.val → 0x60 < romL.get i := by decide
  refine BitVec.eq_of_toNat_eq (toNat_insertionPoint_of_split (p := 10) (by decide) (fun i hi => ?_) fun i hi => ?_)
  · have := hdigits i hi
    bv_omega
  · have := hletters i hi
    bv_omega

theorem insertionPoint_of_above_letters {f : Byte} (h : 0x67 ≤ f) : insertionPoint f = 16 := by
  have hlast : ∀ i, romL.get i < 0x67 := by decide
  refine BitVec.eq_of_toNat_eq (toNat_insertionPoint_of_split (p := 16) le_rfl (fun i _ => ?_) (by omega))
  have := hlast i
  bv_omega

/-- The ranges of R134 by raw code: each is carried by the fold into one range of folded codes. -/
theorem insertionPoint_fold_ranges (c : Byte) :
    (c ≤ 0x2F → insertionPoint (fold c) = 0) ∧ (0x3A ≤ c → c ≤ 0x40 → insertionPoint (fold c) = 10) ∧
      (0x47 ≤ c → c ≤ 0x5A → insertionPoint (fold c) = 16) ∧
      (0x5B ≤ c → c ≤ 0x60 → insertionPoint (fold c) = 10) ∧ (0x67 ≤ c → insertionPoint (fold c) = 16) := by
  refine ⟨fun h => ?_, fun hlow hhigh => ?_, fun hlow hhigh => ?_, fun hlow hhigh => ?_, fun h => ?_⟩
  · rw [fold_of_not_upper (by bv_omega)]
    exact insertionPoint_of_below_digits (by bv_omega)
  · rw [fold_of_not_upper (by bv_omega)]
    exact insertionPoint_between hlow (by bv_omega)
  · rw [fold_of_upper (by bv_omega)]
    exact insertionPoint_of_above_letters (by bv_omega)
  · rw [fold_of_not_upper (by bv_omega)]
    exact insertionPoint_between (by bv_omega) hhigh
  · rw [fold_of_not_upper (by bv_omega)]
    exact insertionPoint_of_above_letters h

/-- Settles O32: the fold by its two branches, and the insertion points of 'G' by their ranges. -/
theorem foldLowersAsciiLetters : Obligations.FoldLowersAsciiLetters :=
  ⟨toNat_fold, fold_fold, rfl, insertionPoint_of_above_letters (by decide),
    insertionPoint_between (by decide) (by decide), fun _ => List.map_map⟩

/-- Settles O34: the count, the split of the table at one place (`toNat_insertionPoint_of_split`) and the ranges, each
a split at 0, 10 or 16. -/
theorem insertionPointByRanges : Obligations.InsertionPointByRanges :=
  ⟨toNat_insertionPoint,
    fun _ => ⟨insertionPoint_of_below_digits, insertionPoint_between, insertionPoint_of_above_letters⟩,
    fun _ _ => toNat_insertionPoint_of_split, insertionPoint_fold_ranges⟩

/-! The validator (R132, R133, R135). -/

theorem validate_of_digit {f : Byte} (h : 0x30 ≤ f ∧ f ≤ 0x39) :
    validate f = ⟨true, (f - 0x30).setWidth 4, 0⟩ := if_pos h

theorem validate_of_letter {f : Byte} (h : 0x61 ≤ f ∧ f ≤ 0x66) :
    validate f = ⟨true, (f - 0x61 + 10).setWidth 4, 0⟩ := by
  have hdigit : ¬(0x30 ≤ f ∧ f ≤ 0x39) := by bv_omega
  rw [validate, if_neg hdigit, if_pos h]

theorem validate_of_neither {f : Byte} (hdigit : ¬(0x30 ≤ f ∧ f ≤ 0x39)) (hletter : ¬(0x61 ≤ f ∧ f ≤ 0x66)) :
    validate f = ⟨false, 0, insertionPoint f⟩ := by
  rw [validate, if_neg hdigit, if_neg hletter]

theorem validate_ok_iff {f : Byte} :
    (validate f).ok = true ↔ (0x30 ≤ f ∧ f ≤ 0x39) ∨ (0x61 ≤ f ∧ f ≤ 0x66) := by
  by_cases hdigit : 0x30 ≤ f ∧ f ≤ 0x39
  · exact iff_of_true (by rw [validate_of_digit hdigit]) (.inl hdigit)
  by_cases hletter : 0x61 ≤ f ∧ f ≤ 0x66
  · exact iff_of_true (by rw [validate_of_letter hletter]) (.inr hletter)
  · exact iff_of_false (by simp [validate_of_neither hdigit hletter]) (not_or.2 ⟨hdigit, hletter⟩)

theorem validate_of_refused {f : Byte} (h : (validate f).ok = false) : validate f = ⟨false, 0, insertionPoint f⟩ := by
  obtain ⟨hdigit, hletter⟩ := not_or.1 (validate_ok_iff.not.1 (Bool.eq_false_iff.1 h))
  exact validate_of_neither hdigit hletter

theorem validate_fold_ok_iff (c : Byte) :
    (validate (fold c)).ok = true ↔
      (0x30 ≤ c ∧ c ≤ 0x39) ∨ (0x41 ≤ c ∧ c ≤ 0x46) ∨ (0x61 ≤ c ∧ c ≤ 0x66) := by
  rw [validate_ok_iff]
  by_cases h : 0x41 ≤ c ∧ c ≤ 0x5A
  · rw [fold_of_upper h]
    bv_omega
  · rw [fold_of_not_upper h]
    bv_omega

theorem validate_ok_iff_mem_romL : ∀ f : Byte, (validate f).ok = true ↔ f ∈ romL.toList := by decide

/-- The value of a valid code is its index in ROM_L. -/
theorem romRead_lower_validate : ∀ f : Byte, (validate f).ok = true → romRead .lower (validate f).v = f := by decide

theorem countP_validate_ok : (List.range 256).countP (fun n => (validate (BitVec.ofNat 8 n)).ok) = 16 := by
  decide +kernel

theorem countP_validate_fold_ok :
    (List.range 256).countP (fun n => (validate (fold (BitVec.ofNat 8 n))).ok) = 22 := by
  decide +kernel

/-- Settles O33: the branches of the validator give the ranges; the table, the index and the two counts are checked over
all codes. -/
theorem validatorAcceptsRomLEntries : Obligations.ValidatorAcceptsRomLEntries :=
  ⟨validate_ok_iff_mem_romL, fun _ hlow hhigh => validate_of_digit ⟨hlow, hhigh⟩,
    fun _ hlow hhigh => validate_of_letter ⟨hlow, hhigh⟩, romRead_lower_validate, fun _ => validate_of_refused,
    countP_validate_ok, countP_validate_fold_ok, validate_fold_ok_iff⟩

/-- Settles O35: the two cases of a letter fold to one code (`fold_swapCase`). -/
theorem validatorIgnoresCase : Obligations.ValidatorIgnoresCase :=
  ⟨fun c => congrArg validate (fold_swapCase c).symm, rfl, rfl, rfl, rfl⟩

/-! The nibble merger (R141). -/

theorem hiNibble_merge (n1 n2 : Nibble) : hiNibble (merge n1 n2) = n1 := by
  ext i hi
  interval_cases i <;> simp [hiNibble, merge]

theorem loNibble_merge (n1 n2 : Nibble) : loNibble (merge n1 n2) = n2 := by
  ext i hi
  interval_cases i <;> simp [loNibble, merge]

theorem toNat_eq_nibbles (b : Byte) : b.toNat = (hiNibble b).toNat * 16 + (loNibble b).toNat := by
  have hhi : (hiNibble b).toNat = b.toNat / 2 ^ 4 := by
    rw [toNat_hiNibble, BitVec.toNat_ushiftRight, Nat.shiftRight_eq_div_pow]
  have hlo : (loNibble b).toNat = b.toNat % 2 ^ 4 := by
    rw [toNat_loNibble, BitVec.toNat_and]
    exact Nat.and_two_pow_sub_one_eq_mod _ 4
  omega

theorem toNat_merge (n1 n2 : Nibble) : (merge n1 n2).toNat = n1.toNat * 16 + n2.toNat := by
  rw [toNat_eq_nibbles, hiNibble_merge, loNibble_merge]

theorem merge_nibbles (b : Byte) : merge (hiNibble b) (loNibble b) = b := by
  ext i hi
  interval_cases i <;> simp [merge, hiNibble, loNibble]

theorem merge_bijective : Function.Bijective fun p : Nibble × Nibble => merge p.1 p.2 :=
  Function.bijective_iff_has_inverse.2 ⟨fun b => (hiNibble b, loNibble b),
    fun p => Prod.ext (hiNibble_merge p.1 p.2) (loNibble_merge p.1 p.2), merge_nibbles⟩

/-- Settles O36: the split reads back both halves of a merge, and the merge of a split is the byte. -/
theorem mergeInvertsTheSplit : Obligations.MergeInvertsTheSplit := by
  refine ⟨fun n1 n2 => ⟨toNat_merge n1 n2, ?_, ?_⟩, merge_nibbles, merge_bijective⟩
  · rw [← hiNibble_eq_extractLsb', hiNibble_merge]
  · rw [← loNibble_eq_extractLsb', loNibble_merge]

end Sys2Proof.Machine

/-! PROOFS. The decoder's commands (spec/41_decoder.md R140, R142, R143, R150): the next state and the response of each,
and runs of characters while an error is latched. -/

namespace Sys2Proof.Machine

/-! DCHAR in its four cases (R142), each selected by the registers and the character. -/

section Dchar

variable {s : State} {c : Byte}

theorem exec_dchar_latched (c : Byte) (herr : s.err = true) : exec (.dchar c) s = .next (repeatError s) := if_pos herr

theorem exec_dchar_invalid (herr : s.err = false) (hok : (validate (fold c)).ok = false) :
    exec (.dchar c) s = .next (takeInvalid (validate (fold c)).ip s) := by
  simp [exec, execDchar, herr, hok]

theorem exec_dchar_high (herr : s.err = false) (hok : (validate (fold c)).ok = true) (hhv : s.hv = false) :
    exec (.dchar c) s = .next (takeHighNibble (validate (fold c)).v s) := by
  simp [exec, execDchar, herr, hok, hhv]

theorem exec_dchar_low (herr : s.err = false) (hok : (validate (fold c)).ok = true) (hhv : s.hv = true) :
    exec (.dchar c) s = .next (takeLowNibble (validate (fold c)).v s) := by
  simp [exec, execDchar, herr, hok, hhv]

end Dchar

/-- Codes below the digits, line break and space among them, are invalid with position 0. -/
theorem validate_fold_blank {c : Byte} (h : c = 0x0A ∨ c = 0x20 ∨ c = 0x00) :
    (validate (fold c)).ok = false ∧ (validate (fold c)).ip = 0 := by
  obtain rfl | rfl | rfl := h <;> exact ⟨rfl, rfl⟩

/-- Settles O38: the four cases of R142 in the statement's order, each by its own equation. -/
theorem dcharResult : Obligations.DcharResult := by
  refine ⟨fun s c => ?_, fun _ _ => decode_eq_dchar_iff, fun _ => validate_fold_blank, rfl, rfl, rfl, rfl⟩
  split_ifs with herr hok hhv
  · exact exec_dchar_latched c herr
  · exact exec_dchar_invalid (eq_false_of_ne_true herr) hok
  · exact exec_dchar_high (eq_false_of_ne_true herr) (eq_true_of_ne_false hok) hhv
  · exact exec_dchar_low (eq_false_of_ne_true herr) (eq_true_of_ne_false hok) (eq_true_of_ne_false hhv)

/-! DBEGIN (R140). -/

/-- The state DBEGIN leaves: no decoder register of the state before it is read. -/
def begun (s : State) : State := respond (statusResponse .ok 0 false) (clearDecoder s)

theorem exec_dbegin (s : State) : exec .dbegin s = .next (begun s) := rfl

theorem begun_rsp (s : State) : (begun s).rsp = (statusResponse .ok 0 false).pack := rfl

theorem decoderCleared_begun (s : State) : decoderCleared (begun s) := rfl

/-- Settles O37: DBEGIN clears the registers and answers with the packed OK, which is the zero word. -/
theorem dbeginResult : Obligations.DbeginResult :=
  ⟨fun _ => decode_eq_dbegin_iff, exec_dbegin, fun s hs =>
    ⟨begun s, exec_dbegin s, (decoderCleared_begun s).trans hs.symm⟩⟩

/-! DEND (R150). -/

/-- The state DEND leaves. -/
def ended (s : State) : State := respond (endOfTransaction s) (clearDecoder s)

theorem exec_dend (s : State) : exec .dend s = .next (ended s) := rfl

theorem ended_rsp (s : State) : (ended s).rsp = (endOfTransaction s).pack := rfl

theorem endOfTransaction_latched {s : State} (herr : s.err = true) :
    endOfTransaction s = statusResponse .invalidChar s.epos false := if_pos herr

theorem endOfTransaction_odd {s : State} (herr : s.err = false) (hhv : s.hv = true) :
    endOfTransaction s = statusResponse .oddLength 0 false := by
  simp [endOfTransaction, herr, hhv]

theorem endOfTransaction_ok {s : State} (herr : s.err = false) (hhv : s.hv = false) :
    endOfTransaction s = statusResponse .ok 0 false := by
  simp [endOfTransaction, herr, hhv]

/-! Runs of commands. -/

theorem hostCommands_append {s t u : State} {is js : List Instr} {rs qs : List RspWord}
    (h : hostCommands s is = some (t, rs)) (h' : hostCommands t js = some (u, qs)) :
    hostCommands s (is ++ js) = some (u, rs ++ qs) := by
  rw [hostCommands, List.map_append]
  exact hostWords_append h h'

/-- R143: while an error is latched every character is answered with the same word, and no register is written. -/
theorem hostCommands_dchar_latched {s : State} (cs : List Byte) (herr : s.err = true) :
    ∃ t, hostCommands s (cs.map .dchar) =
        some (t, List.replicate cs.length (statusResponse .invalidChar s.epos s.hv).pack) ∧
      decoderRegs t = decoderRegs s := by
  induction cs generalizing s with
  | nil => exact ⟨s, rfl, rfl⟩
  | cons c cs ih =>
    obtain ⟨t, hrun, hregs⟩ := ih (s := repeatError s) herr
    exact ⟨t, hostCommands_cons (exec_dchar_latched c herr) rfl hrun, hregs⟩

theorem statusResponse_fields (st : Status) (p : EPos) (pend : Bool) :
    rspStatus (statusResponse st p pend).pack = st.code ∧ rspErrpos (statusResponse st p pend).pack = p ∧
      rspNout (statusResponse st p pend).pack = 0 :=
  ⟨rspStatus_pack _, rspErrpos_pack _, rspNout_pack _⟩

/-- R143: an ENC command or an illegal word neither reads nor changes ERR. -/
theorem step_ignores_err (s : State) (e : Bool) {w : CmdWord} (hw : isEncWord w = true ∨ wellFormedWord w = false) :
    ∃ t u, step (present (offer w) s) = .next t ∧ step (present (offer w) { s with err := e }) = .next u ∧
      t.err = s.err ∧ u.err = e ∧ t.rsp = u.rsp := by
  obtain hEnc | hIllegal := hw
  · obtain hU | hL := isEncWord_iff.1 hEnc
    · exact ⟨_, _, step_encURow hU, step_encURow hU, rfl, rfl, rfl⟩
    · exact ⟨_, _, step_encLRow hL, step_encLRow hL, rfl, rfl, rfl⟩
  · obtain ⟨reason, hd⟩ := wellFormedWord_eq_false_iff.1 hIllegal
    exact ⟨_, _, step_offer_error _ w _ hd, step_offer_error _ w _ hd, rfl, rfl, rfl⟩

/-- Settles O39: a run of characters repeats one response (`hostCommands_dchar_latched`); the other words by
their rows. -/
theorem stickyErrorIgnoresCharacters : Obligations.StickyErrorIgnoresCharacters := by
  refine ⟨fun s cs herr => ?_, fun s w e hw => step_ignores_err s e hw⟩
  obtain ⟨t, hrun, hregs⟩ := hostCommands_dchar_latched cs herr
  refine ⟨t, _, hrun, hregs, List.length_replicate, fun r hr => ?_⟩
  rw [List.eq_of_mem_replicate hr]
  exact statusResponse_fields _ _ _

end Sys2Proof.Machine

/-! PROOFS. Decode transactions (spec/41_decoder.md R144, R145, R151, R160, R161): the run of DSTR, the result a host
reads off it, and the closed form. A run of valid characters and the first invalid character are the two parts of every
run. -/

namespace Sys2Proof.Machine

/-! The run of DSTR is DBEGIN, the characters' run and DEND. -/

theorem hostCommands_dstr {s t : State} {cs : List Byte} {rs : List RspWord}
    (h : hostCommands (begun s) (cs.map .dchar) = some (t, rs)) :
    hostCommands s (dstr cs) = some (ended t, (begun s).rsp :: (rs ++ [(endOfTransaction t).pack])) :=
  hostCommands_cons (exec_dbegin s) rfl
    (hostCommands_append h (hostCommands_cons (exec_dend t) rfl (hostWords_nil _)))

/-! The bytes and the result a host reads off responses (R160). -/

theorem decodedBytes_append (rs qs : List RspWord) : decodedBytes (rs ++ qs) = decodedBytes rs ++ decodedBytes qs := by
  simp [decodedBytes]

theorem decodedBytes_statusResponse (st : Status) (p : EPos) (pend : Bool) (rs : List RspWord) :
    decodedBytes ((statusResponse st p pend).pack :: rs) = decodedBytes rs := by
  simp [decodedBytes, statusResponse]

theorem decodedBytes_takeLowNibble (v : Nibble) (s : State) (rs : List RspWord) :
    decodedBytes ((takeLowNibble v s).rsp :: rs) = merge s.hi v :: decodedBytes rs := by
  simp [decodedBytes, takeLowNibble]

/-- The outcome of a transaction is read off the last response alone, the bytes off those before it. -/
theorem decodeResult_endOfTransaction (rs : List RspWord) (s : State) :
    decodeResult (rs ++ [(endOfTransaction s).pack]) =
      some (if s.err then .decodeError .invalidChar s.epos
        else if s.hv then .decodeError .oddLength 0
        else .ok (decodedBytes rs)) := by
  have hbytes : decodedBytes (rs ++ [(endOfTransaction s).pack]) = decodedBytes rs := by
    obtain ⟨st, p, hend⟩ := endOfTransaction_eq_statusResponse s
    rw [hend, decodedBytes_append, decodedBytes_statusResponse]
    exact List.append_nil _
  rw [decodeResult, List.getLast?_concat, hbytes]
  cases herr : s.err with
  | true => simp [endOfTransaction_latched herr, statusResponse, Status.code]
  | false =>
    cases hhv : s.hv with
    | true => simp [endOfTransaction_odd herr hhv, statusResponse, Status.code]
    | false => simp [endOfTransaction_ok herr hhv, statusResponse, Status.code]

theorem hostDecode_of_run {s t : State} {cs : List Byte} {rs : List RspWord}
    (h : hostCommands (begun s) (cs.map .dchar) = some (t, rs)) :
    hostDecode s cs =
      some (if t.err then .decodeError .invalidChar t.epos
        else if t.hv then .decodeError .oddLength 0
        else .ok (decodedBytes rs)) := by
  rw [hostDecode, hostCommands_dstr h, Option.bind_some, ← List.cons_append, decodeResult_endOfTransaction,
    begun_rsp, decodedBytes_statusResponse]

/-! A run of valid characters. -/

/-- The nibbles of the characters taken and not yet made a byte. -/
def pendingNibbles (s : State) : List Nibble := if s.hv then [s.hi] else []

/-- What is known after the characters `cs`, all valid, have taken the block from `s` to `t` with the responses `rs`. -/
structure ValidRun (s : State) (cs : List Byte) (t : State) (rs : List RspWord) : Prop where
  run : hostCommands s (cs.map .dchar) = some (t, rs)
  err : t.err = false
  parity : t.hv.toNat = (s.hv.toNat + cs.length) % 2
  length : rs.length = cs.length
  status : ∀ r ∈ rs, rspStatus r = Status.ok.code
  bytes : decodedBytes rs = mergePairs (pendingNibbles s ++ cs.map fun c => (validate (fold c)).v)

theorem ValidRun.nil {s : State} (herr : s.err = false) : ValidRun s [] s [] where
  run := rfl
  err := herr
  parity := by cases s.hv <;> rfl
  length := rfl
  status := List.forall_mem_nil _
  bytes := by
    unfold pendingNibbles
    split_ifs <;> rfl

/-- A character in front of a run: held as a high nibble when none is pending, else the low nibble of a byte. -/
theorem ValidRun.cons_high {s t : State} {c : Byte} {cs : List Byte} {rs : List RspWord} (herr : s.err = false)
    (hok : (validate (fold c)).ok = true) (hhv : s.hv = false)
    (h : ValidRun (takeHighNibble (validate (fold c)).v s) cs t rs) :
    ValidRun s (c :: cs) t ((takeHighNibble (validate (fold c)).v s).rsp :: rs) where
  run := hostCommands_cons (exec_dchar_high herr hok hhv) rfl h.run
  err := h.err
  parity := by
    rw [h.parity, hhv, List.length_cons]
    simp [takeHighNibble]
    omega
  length := congrArg (· + 1) h.length
  status := List.forall_mem_cons.2 ⟨rspStatus_pack _, h.status⟩
  bytes := by
    rw [takeHighNibble, respond_rsp, decodedBytes_statusResponse, h.bytes]
    simp [pendingNibbles, takeHighNibble, hhv]

theorem ValidRun.cons_low {s t : State} {c : Byte} {cs : List Byte} {rs : List RspWord} (herr : s.err = false)
    (hok : (validate (fold c)).ok = true) (hhv : s.hv = true)
    (h : ValidRun (takeLowNibble (validate (fold c)).v s) cs t rs) :
    ValidRun s (c :: cs) t ((takeLowNibble (validate (fold c)).v s).rsp :: rs) where
  run := hostCommands_cons (exec_dchar_low herr hok hhv) rfl h.run
  err := h.err
  parity := by
    rw [h.parity, hhv, List.length_cons]
    simp [takeLowNibble]
    omega
  length := congrArg (· + 1) h.length
  status := List.forall_mem_cons.2 ⟨rspStatus_pack _, h.status⟩
  bytes := by
    rw [decodedBytes_takeLowNibble, h.bytes]
    simp [pendingNibbles, takeLowNibble, hhv, mergePairs]

theorem exists_validRun {s : State} {cs : List Byte} (herr : s.err = false)
    (hcs : ∀ c ∈ cs, (validate (fold c)).ok = true) : ∃ t rs, ValidRun s cs t rs := by
  induction cs generalizing s with
  | nil => exact ⟨s, [], .nil herr⟩
  | cons c cs ih =>
    obtain ⟨hc, hcs⟩ := List.forall_mem_cons.1 hcs
    cases hhv : s.hv with
    | false =>
      obtain ⟨t, rs, h⟩ := ih (s := takeHighNibble (validate (fold c)).v s) herr hcs
      exact ⟨t, _, h.cons_high herr hc hhv⟩
    | true =>
      obtain ⟨t, rs, h⟩ := ih (s := takeLowNibble (validate (fold c)).v s) herr hcs
      exact ⟨t, _, h.cons_low herr hc hhv⟩

/-! A run with an invalid character: the responses before it report OK, its own and all later ones are one word. -/

theorem hostCommands_dchar_invalid {s : State} {pre post : List Byte} {c : Byte} (herr : s.err = false)
    (hpre : ∀ x ∈ pre, (validate (fold x)).ok = true) (hc : (validate (fold c)).ok = false) :
    ∃ t rp pend,
      hostCommands s ((pre ++ c :: post).map .dchar) =
          some (t, rp ++
            List.replicate (post.length + 1) (statusResponse .invalidChar (validate (fold c)).ip pend).pack) ∧
        t.err = true ∧ t.epos = (validate (fold c)).ip ∧ rp.length = pre.length ∧
        ∀ r ∈ rp, rspStatus r = Status.ok.code := by
  obtain ⟨u, rp, hvalid⟩ := exists_validRun herr hpre
  obtain ⟨t, hrest, hregs⟩ := hostCommands_dchar_latched (s := takeInvalid (validate (fold c)).ip u) post rfl
  obtain ⟨-, -, hterr, htepos⟩ : t.hi = u.hi ∧ t.hv = u.hv ∧ t.err = true ∧ t.epos = (validate (fold c)).ip := by
    simpa [takeInvalid] using hregs
  refine ⟨t, rp, u.hv, ?_, hterr, htepos, hvalid.length, hvalid.status⟩
  rw [List.map_append]
  exact hostCommands_append hvalid.run (hostCommands_cons (exec_dchar_invalid hvalid.err hc) rfl hrest)

theorem ip_of_refused {f : Byte} (h : (validate f).ok = false) : (validate f).ip = insertionPoint f := by
  rw [validate_of_refused h]

theorem findIdx_append_cons_of_first {α : Type} {p : α → Bool} {xs ys : List α} {y : α} (hxs : ∀ x ∈ xs, p x = false)
    (hy : p y = true) : (xs ++ y :: ys).findIdx p = xs.length := by
  simp [List.findIdx_append, List.findIdx_cons, hy, List.findIdx_eq_length_of_false hxs]

/-- Settles O42: the run up to and after the first invalid character (`hostCommands_dchar_invalid`), once with nothing
after it and once inside DSTR, whose DEND reports the latched position. -/
theorem failureReportedFromTheFirstInvalidCharacter : Obligations.FailureReportedFromTheFirstInvalidCharacter := by
  intro s pre post c hpre hc
  constructor
  · obtain ⟨u, rp, pend, hrun, huerr, huepos, -, -⟩ :=
      hostCommands_dchar_invalid (s := begun s) (post := []) rfl hpre hc
    exact ⟨u, _, hostCommands_cons (exec_dbegin s) rfl hrun, huerr, huepos.trans (ip_of_refused hc)⟩
  · obtain ⟨t, rp, pend, hrun, hterr, htepos, hlen, hrp⟩ :=
      hostCommands_dchar_invalid (s := begun s) (post := post) rfl hpre hc
    have hend : endOfTransaction t = statusResponse .invalidChar (validate (fold c)).ip false :=
      htepos ▸ endOfTransaction_latched hterr
    have hreport (b : Bool) : rspStatus (statusResponse .invalidChar (validate (fold c)).ip b).pack =
          Status.invalidChar.code ∧
        rspErrpos (statusResponse .invalidChar (validate (fold c)).ip b).pack = insertionPoint (fold c) :=
      ⟨rspStatus_pack _, (rspErrpos_pack _).trans (ip_of_refused hc)⟩
    refine ⟨ended t, _, rp, _, List.replicate post.length _, _, hostCommands_dstr hrun, hlen, List.length_replicate,
      hrp, fun r hr => ?_, ?_⟩
    · rw [hend, ← List.replicate_succ, List.mem_append, List.mem_singleton] at hr
      obtain hr | rfl := hr
      · exact List.eq_of_mem_replicate hr ▸ hreport pend
      · exact hreport false
    · have hbefore : ∀ r ∈ rp, (rspStatus r == Status.invalidChar.code) = false := fun r hr => hrp r hr ▸ rfl
      have hfirst := beq_iff_eq.2 (hreport pend).1
      exact (findIdx_append_cons_of_first hbefore hfirst).trans hlen

/-! The closed form (R161). -/

theorem firstInvalid_eq_find? (cs : List Byte) :
    firstInvalid cs = (cs.find? fun c => !(validate (fold c)).ok).map fun c => (validate (fold c)).ip := by
  simp [firstInvalid, List.find?_map, Function.comp_def]

theorem firstInvalid_eq_none_iff {cs : List Byte} :
    firstInvalid cs = none ↔ ∀ c ∈ cs, (validate (fold c)).ok = true := by
  simp [firstInvalid_eq_find?]

/-- The first invalid character cuts a sequence into valid characters, itself and the rest. -/
theorem exists_split_of_firstInvalid {cs : List Byte} {p : EPos} (h : firstInvalid cs = some p) :
    ∃ pre c post, cs = pre ++ c :: post ∧ (∀ x ∈ pre, (validate (fold x)).ok = true) ∧
      (validate (fold c)).ok = false ∧ (validate (fold c)).ip = p := by
  rw [firstInvalid_eq_find?, Option.map_eq_some_iff] at h
  obtain ⟨c, hfind, hp⟩ := h
  obtain ⟨hc, pre, post, hcs, hpre⟩ := List.find?_eq_some_iff_append.1 hfind
  exact ⟨pre, c, post, hcs, by simpa using hpre, by simpa using hc, hp⟩

theorem hostDecode_eq_decodeClosed (s : State) (cs : List Byte) : hostDecode s cs = some (decodeClosed cs) := by
  cases hfirst : firstInvalid cs with
  | some p =>
    obtain ⟨pre, c, post, rfl, hpre, hc, hp⟩ := exists_split_of_firstInvalid hfirst
    obtain ⟨t, rp, pend, hrun, hterr, htepos, -, -⟩ :=
      hostCommands_dchar_invalid (s := begun s) (post := post) rfl hpre hc
    simp [hostDecode_of_run hrun, decodeClosed, hfirst, hterr, htepos, hp]
  | none =>
    obtain ⟨t, rs, h⟩ := exists_validRun (s := begun s) rfl (firstInvalid_eq_none_iff.1 hfirst)
    have hodd : t.hv = true ↔ cs.length % 2 = 1 := by
      rw [← Bool.toNat_eq_one, h.parity]
      simp [begun]
    simp [hostDecode_of_run h.run, decodeClosed, hfirst, h.err, hodd, h.bytes, pendingNibbles, begun]

/-! The source's algorithm (R130) on the closed form's data. -/

/-- The source's lookup is the validator. -/
theorem lookupLower_eq_validate :
    ∀ f : Byte, lookupLower f = if (validate f).ok then .ok (validate f).v else .error (validate f).ip := by
  decide

theorem firstInvalid_cons (c : Byte) (cs : List Byte) :
    firstInvalid (c :: cs) = if (validate (fold c)).ok then firstInvalid cs else some (validate (fold c)).ip := by
  cases hok : (validate (fold c)).ok <;> simp [firstInvalid, hok]

/-- The lookups stop at the first invalid character. -/
theorem mapM_lookupLower (cs : List Byte) :
    (cs.map fold).mapM lookupLower =
      (firstInvalid cs).elim (.ok (cs.map fun c => (validate (fold c)).v)) .error := by
  induction cs with
  | nil => rfl
  | cons c cs ih =>
    rw [List.map_cons, List.mapM_cons, ih, lookupLower_eq_validate, firstInvalid_cons]
    cases (validate (fold c)).ok with
    | false => rfl
    | true => cases firstInvalid cs <;> rfl

theorem sourceDecode_of_valid {cs : List Byte} (h : firstInvalid cs = none) :
    sourceDecode cs = .ok (mergePairs (cs.map fun c => (validate (fold c)).v)) := by
  rw [sourceDecode, mapM_lookupLower, h]
  rfl

theorem sourceDecode_of_invalid {cs : List Byte} {p : EPos} (h : firstInvalid cs = some p) :
    sourceDecode cs = .error p := by
  rw [sourceDecode, mapM_lookupLower, h]
  rfl

theorem decodeClosed_of_invalid {cs : List Byte} {p : EPos} (h : firstInvalid cs = some p) :
    decodeClosed cs = .decodeError .invalidChar p := by
  rw [decodeClosed, h]

theorem decodeClosed_of_even {cs : List Byte} (h : firstInvalid cs = none) (hlen : cs.length % 2 = 0) :
    decodeClosed cs = .ok (mergePairs (cs.map fun c => (validate (fold c)).v)) := by
  simp [decodeClosed, h, hlen]

/-- Settles O43: decode is its closed form, which agrees with the source's algorithm on a sequence with an invalid
character and on one of even length. -/
theorem decodeOperationIsItsClosedForm : Obligations.DecodeOperationIsItsClosedForm := by
  refine ⟨fun s cs => ?_, fun s cs hcs => ?_⟩
  · rw [hostDecode_eq_decodeClosed, decodeClosed, firstInvalid]
    cases (cs.map fun c => validate (fold c)).find? fun d => !d.ok <;> rfl
  · rw [hostDecode_eq_decodeClosed]
    cases hfirst : firstInvalid cs with
    | some p => rw [decodeClosed_of_invalid hfirst, sourceDecode_of_invalid hfirst]
    | none =>
      have hvalid := firstInvalid_eq_none_iff.1 hfirst
      have heven : cs.length % 2 = 0 := hcs.resolve_right fun ⟨c, hc, hinvalid⟩ => by simp [hvalid c hc] at hinvalid
      rw [decodeClosed_of_even hfirst heven, sourceDecode_of_valid hfirst]

/-- Settles O41: DEND looks at ERR before HV, and the closed form at the characters before the length. -/
theorem invalidCharBeforeOddLength : Obligations.InvalidCharBeforeOddLength := by
  refine ⟨fun s => ⟨_, exec_dend _, ?_, ?_⟩, fun s cs p _ hp => ?_, fun s => ?_⟩
  · rw [ended_rsp, endOfTransaction_latched rfl]
    exact rspStatus_pack _
  · rw [ended_rsp, endOfTransaction_latched rfl]
    exact rspErrpos_pack _
  · rw [hostDecode_eq_decodeClosed, decodeClosed_of_invalid hp]
  · rw [hostDecode_eq_decodeClosed, decodeClosed_of_invalid (p := 16) (by decide)]

/-! DEND (R150). -/

/-- One valid character leaves its nibble pending, so the transaction ends odd. -/
theorem hostWords_oneCharacter (s : State) :
    ∃ t r1 r2, hostWords s [0x4000, 0x6061, 0x8000] = some (t, [r1, r2, 0x00080000]) := by
  obtain ⟨t, rs, h⟩ := exists_validRun (s := begun s) (cs := [0x61]) rfl (by decide)
  have hhv : t.hv = true := Bool.toNat_eq_one.1 h.parity
  obtain ⟨r, rfl⟩ := List.length_eq_one_iff.1 h.length
  refine ⟨ended t, (begun s).rsp, r, (hostCommands_dstr h.run).trans ?_⟩
  rw [endOfTransaction_odd h.err hhv]
  rfl

/-- Settles O40: the response by the order ERR, HV; the empty transaction by the closed form, the odd one by its run. -/
theorem dendResult : Obligations.DendResult := by
  refine ⟨fun _ => decode_eq_dend_iff, fun s => ?_, fun s => hostDecode_eq_decodeClosed s [], ⟨_, rfl, rfl⟩,
    hostWords_oneCharacter⟩
  exact exec_dend s

end Sys2Proof.Machine

/-! PROOFS. The commands that report no error (spec/60_exceptions.md R184): the STATUS of ENC.U, ENC.L and DBEGIN. -/

namespace Sys2Proof.Machine

@[simp] theorem rspStatus_encodeByte (k : LetterCase) (b : Byte) (s : State) :
    rspStatus (encodeByte k b s).rsp = Status.ok.code := rspStatus_pack _

@[simp] theorem rspStatus_begun (s : State) : rspStatus (begun s).rsp = Status.ok.code := rspStatus_pack _

/-- Settles O21: the next state is `encodeByte` in the command's case or `begun`, and each packs a response with
STATUS OK whatever the state. -/
theorem encAndDbeginNeverReportAnError : Obligations.EncAndDbeginNeverReportAnError := fun s =>
  ⟨fun b => ⟨_, exec_encInstr .upper b s, rspStatus_encodeByte .upper b s⟩,
    fun b => ⟨_, exec_encInstr .lower b s, rspStatus_encodeByte .lower b s⟩,
    ⟨_, exec_dbegin s, rspStatus_begun s⟩⟩

end Sys2Proof.Machine

/-! PROOFS. Reset (spec/70_reset_and_hazards.md R210, R213): what an edge with `rst` = 1 leaves, and that the decoder
registers it leaves are those of DBEGIN. -/

namespace Sys2Proof.Machine

theorem cmdReady_reset (valid : Bool) (w : CmdWord) : cmdReady ⟨true, valid, w⟩ = false := rfl

theorem decoderCleared_reset : decoderCleared State.reset := rfl

theorem decoderCleared_resetEdge (s : State) : decoderCleared (resetEdge s) := rfl

/-- Settles O2: `cmd_ready` is the negation of `rst`, and the step is `resetEdge` whatever is offered (`step_reset`). -/
theorem resetEdgeClearsAndAcceptsNothing : Obligations.ResetEdgeClearsAndAcceptsNothing := fun s valid w =>
  ⟨cmdReady_reset valid w, step_reset s valid w⟩

/-- Settles O3: the reset edge and DBEGIN each clear the decoder registers; only DBEGIN writes a response. -/
theorem resetAbandonsTransactionAsDbegin : Obligations.ResetAbandonsTransactionAsDbegin := by
  refine ⟨decoderCleared_reset, fun s valid w => ⟨resetEdge s, begun s, step_reset s valid w, step_dbegin s, ?_, ?_, ?_⟩⟩
  · exact (decoderCleared_resetEdge s).trans (decoderCleared_begun s).symm
  · exact resetEdge_rspValid s
  · exact respond_rspValid _ _

end Sys2Proof.Machine

/-! PROOFS. The decoder against the encoder and the illegal words (spec/30_encoding.md R70 to R79). -/

namespace Sys2Proof

/-- Settles O10: the decoder reads back the fields the encoder packs (`decode_encode`). -/
theorem decodeOfEncode : Obligations.DecodeOfEncode := decode_encode

/-- Settles O11: the fields the decoder has checked are the whole word (`encode_of_decode`). -/
theorem encodeOfDecode : Obligations.EncodeOfDecode := fun _ _ => encode_of_decode

/-- Settles O12: each word is computed. -/
theorem sampleWordsDecode : Obligations.SampleWordsDecode := by
  unfold Obligations.SampleWordsDecode
  decide

/-! What the checks of the decoder refuse. -/

section Refusals

variable {w : CmdWord} {k : Except Illegal Instr}

theorem checkVarRsv_refuses_iff :
    (∃ e, checkVarRsv w k = .error e) ↔ varField w ≠ 0 ∨ rsvField w ≠ 0 ∨ ∃ e, k = .error e := by
  unfold checkVarRsv
  split_ifs <;> simp_all

theorem checkCase_refuses_iff : (∃ e, checkCase w k = .error e) ↔ caseField w ≠ 0 ∨ ∃ e, k = .error e := by
  unfold checkCase
  split_ifs <;> simp_all

theorem checkData_refuses_iff : (∃ e, checkData w k = .error e) ↔ dataField w ≠ 0 ∨ ∃ e, k = .error e := by
  unfold checkData
  split_ifs <;> simp_all

end Refusals

/-- The bits outside OP are VAR, CASE, RSV and DATA. -/
theorem and_operandMask_eq_zero_iff {w : CmdWord} :
    w &&& 0x1FFF = 0 ↔ varField w = 0 ∧ caseField w = 0 ∧ rsvField w = 0 ∧ dataField w = 0 := by
  constructor
  · intro h
    have hbit (i : Nat) (hi : i < 13) : w.getLsbD i = false := by
      have := congrArg (·.getLsbD i) h
      interval_cases i <;> simpa using this
    refine ⟨?_, ?_, ?_, ?_⟩ <;> ext i hi
    · simpa [varField] using hbit (11 + i) (by omega)
    · simpa [caseField] using hbit (10 + i) (by omega)
    · simpa [rsvField] using hbit (8 + i) (by omega)
    · simpa [dataField] using hbit i (by omega)
  · rintro ⟨hvar, hcase, hrsv, hdata⟩
    rw [← packCmd_fields w, hvar, hcase, hrsv, hdata]
    generalize opField w = op
    revert op
    decide

theorem enc_refuses_iff {w : CmdWord} {i j : Instr} :
    (∃ e, checkVarRsv w (if caseField w = 0 then .ok i else .ok j) = .error e) ↔ varField w ≠ 0 ∨ rsvField w ≠ 0 := by
  rw [checkVarRsv_refuses_iff]
  split_ifs <;> simp

theorem dchar_refuses_iff {w : CmdWord} {i : Instr} :
    (∃ e, checkVarRsv w (checkCase w (.ok i)) = .error e) ↔ varField w ≠ 0 ∨ caseField w ≠ 0 ∨ rsvField w ≠ 0 := by
  rw [checkVarRsv_refuses_iff, checkCase_refuses_iff]
  simp only [reduceCtorEq, exists_false, or_false]
  tauto

/-- DBEGIN and DEND are refused for any bit outside OP (R73 to R76). -/
theorem emptyOperand_refuses_iff {w : CmdWord} {i : Instr} :
    (∃ e, checkVarRsv w (checkCase w (checkData w (.ok i))) = .error e) ↔ w &&& 0x1FFF ≠ 0 := by
  refine Iff.trans ?_ and_operandMask_eq_zero_iff.not.symm
  rw [checkVarRsv_refuses_iff, checkCase_refuses_iff, checkData_refuses_iff]
  simp only [reduceCtorEq, exists_false, or_false]
  tauto

theorem op_reserved_iff : ∀ op : BitVec 3,
    (op = 0b000 ∨ op = 0b101 ∨ op = 0b110 ∨ op = 0b111) ↔ op ≠ 0b001 ∧ op ≠ 0b010 ∧ op ≠ 0b011 ∧ op ≠ 0b100 := by
  decide

/-- Settles O14: the branches of the decoder by OP, and in each what its checks refuse. -/
theorem illegalWordsAreTheReservedGroups : Obligations.IllegalWordsAreTheReservedGroups := by
  intro w
  rw [op_reserved_iff, decode]
  by_cases hEnc : opField w = 0b001
  · rw [if_pos hEnc, enc_refuses_iff]
    simp [hEnc]
  by_cases hBegin : opField w = 0b010
  · rw [if_neg hEnc, if_pos hBegin, emptyOperand_refuses_iff]
    simp [hBegin]
  by_cases hChar : opField w = 0b011
  · rw [if_neg hEnc, if_neg hBegin, if_pos hChar, dchar_refuses_iff]
    simp [hChar]
  by_cases hEnd : opField w = 0b100
  · rw [if_neg hEnc, if_neg hBegin, if_neg hChar, if_pos hEnd, emptyOperand_refuses_iff]
    simp [hEnd]
  · rw [if_neg hEnc, if_neg hBegin, if_neg hChar, if_neg hEnd]
    exact iff_of_true ⟨_, rfl⟩ (.inl ⟨hEnc, hBegin, hChar, hEnd⟩)

end Sys2Proof

/-! PROOFS. The edges (spec/30_encoding.md R89, R90, spec/70_reset_and_hazards.md R210, R225): the three kinds of
sample, the step on each, and what no edge changes or reads. -/

namespace Sys2Proof.Machine

/-- Settles O50: the registers of the reset state are computed (`decoderInv_reset`). -/
theorem resetMeetsTheDecoderInvariants : Obligations.ResetMeetsTheDecoderInvariants := decoderInv_reset

/-! The kinds of sample (R89). -/

theorem portSample_cases (p : PortSample) :
    (∃ valid w, p = ⟨true, valid, w⟩) ∨ (∃ w, p = ⟨false, false, w⟩) ∨ ∃ w, p = offer w := by
  obtain ⟨rst, valid, w⟩ := p
  cases rst with
  | true => exact .inl ⟨valid, w, rfl⟩
  | false =>
    cases valid with
    | false => exact .inr (.inl ⟨w, rfl⟩)
    | true => exact .inr (.inr ⟨w, rfl⟩)

theorem eq_offer_iff {p : PortSample} {w : CmdWord} :
    p = offer w ↔ p.rst = false ∧ p.cmdValid = true ∧ p.cmd = w := by
  cases p
  simp [offer]

/-- Settles O4: a sample is accepted exactly when it is the offer of the word (`portEvent_accept_iff`). -/
theorem acceptedExactlyWhenOfferedAndReady : Obligations.AcceptedExactlyWhenOfferedAndReady := by
  refine fun p w => ⟨rfl, ?_⟩
  rw [portEvent_accept_iff, eq_offer_iff, cmdReady, Bool.not_eq_true']
  tauto

/-! The step runs the offered command (R87). -/

theorem tableWord_toNat (w : CmdWord) : tableWord 16 w.toNat = w := by
  rw [tableWord, Nat.mod_eq_of_lt w.isLt, BitVec.ofNat_toNat, BitVec.setWidth_eq]

/-- Settles O5: a state whose next sample offers a word is that offer in front of the rest (`eq_present_of_input`). -/
theorem stepRunsTheDecodedCommand : Obligations.StepRunsTheDecodedCommand := by
  refine ⟨fun s p ps i hinput hrst hvalid hdecode => ?_, fun s i => ?_⟩
  · rw [eq_present_of_input s p ps hinput, eq_offer_iff.2 ⟨hrst, hvalid, rfl⟩]
    exact step_offer_ok _ _ i hdecode
  · rw [State.withFetchWord, tableWord_toNat]
    exact step_offer_encode i s

/-! Every edge goes on (R187, R225). -/

/-- The step reads the next sample, and the state with it used up. -/
theorem step_eq_step_present (s : State) : step s = step (present (nextSample s) (passEdge s)) := rfl

/-- `rsp_valid` is 1 after an edge exactly when a word was accepted at it, and a reset edge clears `rsp` (R90, R210). -/
theorem step_rspValid (s : State) (p : PortSample) :
    ∃ t, step (present p s) = .next t ∧ (t.rspValid = true ↔ p.rst = false ∧ p.cmdValid = true) ∧
      (p.rst = true → t.rsp = 0) := by
  obtain ⟨valid, w, rfl⟩ | ⟨w, rfl⟩ | ⟨w, rfl⟩ := portSample_cases p
  · exact ⟨_, step_reset s valid w, by simp, fun _ => rfl⟩
  · exact ⟨_, step_idle s w, by simp, by simp⟩
  · obtain ⟨t, hstep, hvalid⟩ := step_offer_answers s w
    exact ⟨t, hstep, by simp [hvalid, offer], by simp [offer]⟩

/-- Settles O9: by the kind of sample (`step_rspValid`). -/
theorem rspValidExactlyAfterAcceptance : Obligations.RspValidExactlyAfterAcceptance := step_rspValid

/-- Settles O7: the step is that of its next sample, and each kind of sample has a next state. -/
theorem everyEdgeGoesOn : Obligations.EveryEdgeGoesOn := fun s =>
  let ⟨t, hstep, _⟩ := step_rspValid (passEdge s) (nextSample s)
  ⟨t, (step_eq_step_present s).trans hstep⟩

/-! An edge without a command (R90, R195). -/

theorem step_pastInput (s : State) :
    step { s with input := [] } = .next (idleEdge 0 { s with input := [] }) := rfl

/-- Settles O8: the edge is `idleEdge`, whose free value is the one named. -/
theorem idleEdgeHoldsTheDecoder : Obligations.IdleEdgeHoldsTheDecoder :=
  ⟨fun s w => ⟨_, step_idle s w⟩, fun s => ⟨_, step_pastInput s⟩⟩

/-! What every command leaves unchanged. -/

theorem exec_keeps_ports {i : Instr} {s t : State} (h : exec i s = .next t) :
    t.input = s.input ∧ t.freeIdx = s.freeIdx := by
  obtain ⟨b, -, rfl⟩ | ⟨b, -, rfl⟩ | ⟨-, rfl⟩ | ⟨c, -, hchar⟩ | ⟨-, rfl⟩ := exec_cases h
  case inr.inr.inr.inl =>
    obtain ⟨-, rfl⟩ | ⟨-, -, rfl⟩ | ⟨-, -, -, rfl⟩ | ⟨-, -, -, rfl⟩ := hchar
    all_goals exact ⟨rfl, rfl⟩
  all_goals exact ⟨rfl, rfl⟩

/-- A character writes HI and HV, or ERR and EPOS, and none of them while ERR is 1 (R142, R143). -/
theorem execDchar_frame (c : Byte) (s : State) :
    ∃ t, exec (.dchar c) s = .next t ∧
      ((t.hi = s.hi ∧ t.hv = s.hv) ∨ (t.err = s.err ∧ t.epos = s.epos)) ∧
      (s.err = true → decoderRegs t = decoderRegs s) := by
  obtain ⟨-, h⟩ | ⟨herr, -, h⟩ | ⟨herr, -, -, h⟩ | ⟨herr, -, -, h⟩ := execDchar_cases c s
  · exact ⟨_, h, .inl ⟨rfl, rfl⟩, fun _ => decoderRegs_repeatError s⟩
  · exact ⟨_, h, .inl ⟨rfl, rfl⟩, by simp [herr]⟩
  · exact ⟨_, h, .inr ⟨rfl, rfl⟩, by simp [herr]⟩
  · exact ⟨_, h, .inr ⟨rfl, rfl⟩, by simp [herr]⟩

/-- Settles O53: every command answers and keeps the model's own fields; ENC writes the response alone, and DCHAR by
its four cases. -/
theorem commandFrames : Obligations.CommandFrames := by
  refine ⟨fun i s => ?_, fun b s => ⟨_, _, exec_encInstr .upper b s, exec_encInstr .lower b s,
    decoderRegs_encodeByte .upper b s, decoderRegs_encodeByte .lower b s⟩, execDchar_frame⟩
  obtain ⟨t, hexec, hvalid⟩ := exec_answers i s
  exact ⟨t, hexec, hvalid, exec_keeps_ports hexec⟩

/-! The samples to come are kept and not read by a step. -/

/-- The state with other samples to come. -/
def withInput (qs : List PortSample) (s : State) : State := { s with input := qs }

theorem exec_withInput {i : Instr} {s t : State} (h : exec i s = .next t) (qs : List PortSample) :
    exec i (withInput qs s) = .next (withInput qs t) := by
  obtain ⟨b, rfl, rfl⟩ | ⟨b, rfl, rfl⟩ | ⟨rfl, rfl⟩ | ⟨c, rfl, hchar⟩ | ⟨rfl, rfl⟩ := exec_cases h
  case inr.inr.inr.inl =>
    obtain ⟨herr, rfl⟩ | ⟨herr, hok, rfl⟩ | ⟨herr, hok, hhv, rfl⟩ | ⟨herr, hok, hhv, rfl⟩ := hchar
    · exact exec_dchar_latched c herr
    · exact exec_dchar_invalid herr hok
    · exact exec_dchar_low herr hok hhv
    · exact exec_dchar_high herr hok hhv
  all_goals rfl

/-- One edge, whatever samples come after it. -/
theorem step_withInput (s : State) (p : PortSample) :
    ∃ t, step (present p s) = .next t ∧ t.input = s.input ∧
      ∀ qs, step (present p (withInput qs s)) = .next (withInput qs t) := by
  obtain ⟨valid, w, rfl⟩ | ⟨w, rfl⟩ | ⟨w, rfl⟩ := portSample_cases p
  · exact ⟨_, step_reset s valid w, rfl, fun qs => step_reset _ valid w⟩
  · exact ⟨_, step_idle s w, rfl, fun qs => step_idle _ w⟩
  · cases hd : decode w with
    | error e => exact ⟨_, step_offer_error s w e hd, rfl, fun qs => step_offer_error _ w e hd⟩
    | ok i =>
      obtain ⟨t, hexec, -⟩ := exec_answers i s
      exact ⟨t, (step_offer_ok s w i hd).trans hexec, (exec_keeps_ports hexec).1,
        fun qs => (step_offer_ok _ w i hd).trans (exec_withInput hexec qs)⟩

theorem core_run_succ {s t : State} (k : Nat) (h : step s = .next t) :
    Sys2Proof.core.run (k + 1) s = Sys2Proof.core.run k t := by
  have hcore : Sys2Proof.core.step s = .next t := h
  simp only [Host.Core.run, hcore]

/-- The host's run and the core's, with any samples to come after those of the run. -/
theorem hostRun_eq_coreRun (s : State) (ps : List PortSample) :
    ∃ t rs, hostRun s ps = some (t, rs) ∧
      Sys2Proof.core.run ps.length (withInput (ps ++ s.input) s) = .next t := by
  induction ps generalizing s with
  | nil => exact ⟨s, [], rfl, rfl⟩
  | cons p ps ih =>
    obtain ⟨t, hstep, hinput, hany⟩ := step_withInput s p
    obtain ⟨u, rs, hrun, hcore⟩ := ih t
    refine ⟨u, _, by rw [hostRun_cons ps hstep, hrun]; rfl, ?_⟩
    rw [List.length_cons, core_run_succ (t := withInput (ps ++ t.input) t)]
    · exact hcore
    · rw [hinput]
      exact hany (ps ++ s.input)

/-- Settles O48: by induction on the samples; a step neither reads nor changes those that come after it. -/
theorem hostRunIsACoreRun : Obligations.HostRunIsACoreRun := hostRun_eq_coreRun

/-! Edges at which nothing is accepted (R90, R195). -/

/-- A sample that resets or offers a word. -/
def isEvent (p : PortSample) : Bool := p.rst || p.cmdValid

/-- Two runs from the same decoder registers, one without the idle samples, give the same responses and the same
decoder registers. -/
theorem hostRun_filter_isEvent {s s' : State} (ps : List PortSample) (hregs : decoderRegs s = decoderRegs s') :
    ∃ t u rs, hostRun s ps = some (t, rs) ∧ hostRun s' (ps.filter isEvent) = some (u, rs) ∧
      decoderRegs t = decoderRegs u := by
  induction ps generalizing s s' with
  | nil => exact ⟨s, s', [], rfl, rfl, hregs⟩
  | cons p ps ih =>
    obtain ⟨valid, w, rfl⟩ | ⟨w, rfl⟩ | ⟨w, rfl⟩ := portSample_cases p
    · obtain ⟨t, u, rs, hrun, hrun', htu⟩ := ih (s := resetEdge s) (s' := resetEdge s') rfl
      refine ⟨t, u, rs, ?_, ?_, htu⟩
      · simp [hostRun_cons ps (step_reset s valid w), hrun]
      · rw [List.filter_cons_of_pos (by rfl), hostRun_cons _ (step_reset s' valid w), hrun']
        rfl
    · obtain ⟨t, u, rs, hrun, hrun', htu⟩ := ih (s := idleEdge w s) hregs
      refine ⟨t, u, rs, ?_, ?_, htu⟩
      · simp [hostRun_cons ps (step_idle s w), hrun]
      · rw [List.filter_cons_of_neg (by simp [isEvent])]
        exact hrun'
    · obtain ⟨v, v', hstep, hstep', hvregs, hvalid, hvalid', hrsp⟩ := step_offer_sameAnswer w hregs
      obtain ⟨t, u, rs, hrun, hrun', htu⟩ := ih hvregs
      refine ⟨t, u, v.rsp :: rs, ?_, ?_, htu⟩
      · simp [hostRun_cons ps hstep, hrun, hvalid]
      · rw [List.filter_cons_of_pos (by rfl), hostRun_cons _ hstep', hrun']
        simp [hvalid', hrsp]

/-- Settles O49: the two runs from one state (`hostRun_filter_isEvent`). -/
theorem idleEdgesDoNotShow : Obligations.IdleEdgesDoNotShow := fun _ ps => hostRun_filter_isEvent ps rfl

end Sys2Proof.Machine

/-! PROOFS. What the responses report and when the flags change (spec/30_encoding.md R80 to R88, spec/10_state.md R31,
spec/60_exceptions.md section 3): STATUS and ERRPOS by command, the legal response values, and the events of HV and
ERR. -/

namespace Sys2Proof.Machine

/-! STATUS and ERRPOS (R83, R85). -/

theorem dcharRow_iff {w : CmdWord} : w &&& 0xFF00 = 0x6000 ↔ decode w = .ok (.dchar (w.setWidth 8)) :=
  (and_iff_left rfl).symm.trans decode_eq_dchar_iff.symm

/-- What a response reports: STATUS and ERRPOS. -/
def Reports (r : RspWord) (st : BitVec 3) (p : EPos) : Prop := rspStatus r = st ∧ rspErrpos r = p

theorem reports_pack (r : Response) : Reports r.pack r.status.code r.errpos := ⟨rspStatus_pack r, rspErrpos_pack r⟩

/-- DCHAR reports ERR and EPOS as they are after it. -/
theorem dchar_reports (c : Byte) (s : State) :
    ∃ t, exec (.dchar c) s = .next t ∧ Reports t.rsp (if t.err then 1 else 0) (if t.err then t.epos else 0) := by
  obtain ⟨herr, h⟩ | ⟨-, -, h⟩ | ⟨herr, -, -, h⟩ | ⟨herr, -, -, h⟩ := execDchar_cases c s
  · have ht : (repeatError s).err = true := herr
    refine ⟨_, h, ?_⟩
    simp only [ht, if_true]
    exact reports_pack _
  · exact ⟨_, h, reports_pack _⟩
  · have ht : (takeLowNibble (validate (fold c)).v s).err = false := herr
    refine ⟨_, h, ?_⟩
    simp only [ht]
    exact reports_pack _
  · have ht : (takeHighNibble (validate (fold c)).v s).err = false := herr
    refine ⟨_, h, ?_⟩
    simp only [ht]
    exact reports_pack _

/-- DEND reports ERR, EPOS and HV as they are before it (R150). -/
theorem dend_reports (s : State) :
    Reports (ended s).rsp (if s.err then 1 else if s.hv then 2 else 0) (if s.err then s.epos else 0) := by
  rw [ended_rsp, endOfTransaction]
  split_ifs <;> exact reports_pack _

/-- Settles O18: by the command of the word; DCHAR and DEND by their own lemmas, the others report one STATUS. -/
theorem statusAndPositionByCommand : Obligations.StatusAndPositionByCommand := by
  intro s w
  simp only [dcharRow_iff, ← decode_eq_dend_iff]
  cases hd : decode w with
  | error e =>
    have hwf : wellFormedWord w = false := wellFormedWord_eq_false_iff.2 ⟨e, hd⟩
    simp only [hwf, reduceCtorEq, if_true, if_false]
    exact ⟨illegal s, step_offer_error s w e hd, reports_pack _⟩
  | ok i =>
    have hwf : wellFormedWord w = true := wellFormedWord_iff.2 ⟨i, hd⟩
    rw [step_offer_ok s w i hd]
    simp only [hwf, Except.ok.injEq, reduceCtorEq, if_false]
    cases i with
    | dchar c =>
      obtain ⟨-, rfl⟩ := decode_eq_dchar_iff.1 hd
      simp only [if_true]
      exact dchar_reports (w.setWidth 8) s
    | dend =>
      simp only [reduceCtorEq, if_true, if_false]
      exact ⟨ended s, exec_dend s, dend_reports s⟩
    | encU b | encL b | dbegin =>
      simp only [reduceCtorEq, if_false]
      exact ⟨_, rfl, reports_pack _⟩

/-! The legal response values (93_implementation_defined.md V2 to V5). -/

theorem status_code_le (st : Status) : st.code ≤ 3 := by cases st <;> decide

theorem status_code_eq_one_iff {st : Status} : st.code = 1 ↔ st = .invalidChar := by cases st <;> decide

/-- A response with output elements reports no error. -/
theorem legalResponse_of_outputs {r : Response} (hstatus : r.status = .ok) (hpos : r.errpos = 0)
    (hnout : r.nout = 2 ∨ r.nout = 1 ∧ r.out1 = 0) : legalResponse r.pack := by
  simp only [legalResponse, rspStatus_pack, rspNout_pack, rspErrpos_pack, rspOut1_pack, rspOut0_pack, rspZero_pack,
    hstatus, hpos]
  obtain hn | ⟨hn, hout⟩ := hnout
  · simp [hn, Status.code, legalPosition]
  · simp [hn, hout, Status.code, legalPosition]

/-- A response without output elements carries a position only with INVALID_CHAR. -/
theorem legalResponse_statusResponse {st : Status} {p : EPos} (pend : Bool) (hp : legalPosition p)
    (hcause : st ≠ .invalidChar → p = 0) : legalResponse (statusResponse st p pend).pack := by
  obtain ⟨hnout, -, hout0, hout1⟩ := outputs_statusResponse st p pend
  simp only [legalResponse, hnout, hout0, hout1, rspStatus_pack, rspErrpos_pack, rspZero_pack]
  have hcode : st.code ≠ 1 → p = 0 := fun h => hcause (mt status_code_eq_one_iff.2 h)
  simpa [statusResponse] using And.intro (status_code_le st) (And.intro hp hcode)

theorem legalResponse_statusResponse_zero (st : Status) (pend : Bool) : legalResponse (statusResponse st 0 pend).pack :=
  legalResponse_statusResponse pend (.inl rfl) fun _ => rfl

theorem legalResponse_invalidChar {p : EPos} (pend : Bool) (hp : legalPosition p) :
    legalResponse (statusResponse .invalidChar p pend).pack :=
  legalResponse_statusResponse pend hp (absurd rfl)

theorem legalResponse_endOfTransaction {s : State} (hs : DecoderInv s) : legalResponse (endOfTransaction s).pack := by
  obtain ⟨-, -, hlatched⟩ := hs
  unfold endOfTransaction
  split_ifs with herr hhv
  · exact legalResponse_invalidChar false (hlatched herr)
  · exact legalResponse_statusResponse_zero _ _
  · exact legalResponse_statusResponse_zero _ _

theorem legalResponse_of_exec {i : Instr} {s t : State} (hs : DecoderInv s) (h : exec i s = .next t) :
    legalResponse t.rsp := by
  obtain ⟨b, -, rfl⟩ | ⟨b, -, rfl⟩ | ⟨-, rfl⟩ | ⟨c, -, hchar⟩ | ⟨-, rfl⟩ := exec_cases h
  case inl | inr.inl => exact legalResponse_of_outputs rfl rfl (.inl rfl)
  case inr.inr.inl => exact legalResponse_statusResponse_zero _ _
  case inr.inr.inr.inr => exact legalResponse_endOfTransaction hs
  case inr.inr.inr.inl =>
    obtain ⟨-, -, hlatched⟩ := hs
    obtain ⟨herr, rfl⟩ | ⟨-, hrefused, rfl⟩ | ⟨-, -, -, rfl⟩ | ⟨-, -, -, rfl⟩ := hchar
    · exact legalResponse_invalidChar _ (hlatched herr)
    · exact legalResponse_invalidChar _ (legalPosition_ip_of_refused _ hrefused)
    · exact legalResponse_of_outputs rfl rfl (.inr ⟨rfl, rfl⟩)
    · exact legalResponse_statusResponse_zero _ _

/-- Settles O20: an illegal word's answer and every command's (`legalResponse_of_exec`). -/
theorem everyResponseIsLegal : Obligations.EveryResponseIsLegal := by
  intro s w hs
  cases hd : decode w with
  | error e => exact ⟨illegal s, step_offer_error s w e hd, rfl, legalResponse_statusResponse_zero _ _⟩
  | ok i =>
    obtain ⟨t, hexec, hvalid⟩ := exec_answers i s
    exact ⟨t, (step_offer_ok s w i hd).trans hexec, hvalid, legalResponse_of_exec hs hexec⟩

/-! Words that are none of the decoder's commands. -/

theorem isDecoderWord_iff {w : CmdWord} : isDecoderWord w = true ↔ w = 0x4000 ∨ w &&& 0xFF00 = 0x6000 ∨ w = 0x8000 := by
  simp only [isDecoderWord, Bool.or_eq_true, covers_iff, patternDbegin, patternDchar, patternDend, and_fullMask,
    or_assoc]

/-- ENC and illegal words write no decoder register, and their response carries no byte of a decode. -/
theorem step_otherWord (s : State) {w : CmdWord} (hw : isDecoderWord w = false) :
    ∃ t, step (present (offer w) s) = .next t ∧ t.rspValid = true ∧ decoderRegs t = decoderRegs s ∧
      rspNout t.rsp ≠ 1 := by
  have hnone := mt isDecoderWord_iff.2 (Bool.eq_false_iff.1 hw)
  obtain ⟨hB, hC, hE⟩ : w ≠ 0x4000 ∧ w &&& 0xFF00 ≠ 0x6000 ∧ w ≠ 0x8000 := by tauto
  by_cases hU : w &&& 0xFF00 = 0x2000
  · exact ⟨_, step_encURow hU, rfl, rfl, by simp [encodeByte]⟩
  by_cases hL : w &&& 0xFF00 = 0x2400
  · exact ⟨_, step_encLRow hL, rfl, rfl, by simp [encodeByte]⟩
  · exact ⟨_, step_noRow hU hL hB hC hE, rfl, rfl, by simp [illegal, statusResponse]⟩

/-! The events of the flags (10_state.md R31). -/

/-- How the decoder registers may go from `s` to `t`, by the event: `cleared` for DBEGIN, DEND or reset, `dchar` for
an accepted character, which is a hex digit or not by `valid`. -/
def FlagsFollow (s t : State) (cleared dchar valid : Prop) : Prop :=
  (s.err = false → (t.err = true ↔ dchar ∧ ¬valid)) ∧
    (s.err = true → (t.err = false ↔ cleared)) ∧
    (s.hv = false → (t.hv = true ↔ dchar ∧ valid ∧ s.err = false)) ∧
    (s.hv = true → (t.hv = false ↔ cleared ∨ (dchar ∧ valid ∧ s.err = false))) ∧
    (t.epos ≠ s.epos → (s.err = false ∧ t.err = true) ∨ cleared) ∧
    (t.hi ≠ s.hi → cleared ∨ (dchar ∧ valid ∧ s.err = false))

section FlagsFollow

variable {s t : State} {cleared dchar valid : Prop}

theorem flagsFollow_of_cleared (ht : decoderCleared t) (hcleared : cleared) (hdchar : ¬dchar) :
    FlagsFollow s t cleared dchar valid := by
  obtain ⟨-, hhv, herr, -⟩ : t.hi = 0 ∧ t.hv = false ∧ t.err = false ∧ t.epos = 0 := by simpa using ht
  simp [FlagsFollow, hhv, herr, hcleared, hdchar]

theorem flagsFollow_of_held (ht : decoderRegs t = decoderRegs s) (hcleared : ¬cleared)
    (hquiet : dchar → s.err = true) : FlagsFollow s t cleared dchar valid := by
  obtain ⟨hhi, hhv, herr, hepos⟩ : t.hi = s.hi ∧ t.hv = s.hv ∧ t.err = s.err ∧ t.epos = s.epos := by simpa using ht
  have hno : ¬(dchar ∧ s.err = false) := fun ⟨hd, he⟩ => by simp [hquiet hd] at he
  have hno' : ¬(dchar ∧ valid ∧ s.err = false) := fun ⟨hd, _, he⟩ => hno ⟨hd, he⟩
  have hclean : s.err = false → ¬dchar := fun he hd => hno ⟨hd, he⟩
  simp +contextual [FlagsFollow, hhi, hhv, herr, hepos, hcleared, hno', hclean]

theorem flagsFollow_takeInvalid (ip : EPos) (herr : s.err = false) (hcleared : ¬cleared) (hdchar : dchar)
    (hvalid : ¬valid) : FlagsFollow s (takeInvalid ip s) cleared dchar valid := by
  simp +contextual [FlagsFollow, takeInvalid, herr, hcleared, hdchar, hvalid]

theorem flagsFollow_takeLowNibble (v : Nibble) (herr : s.err = false) (hhv : s.hv = true)
    (hdchar : dchar) (hvalid : valid) : FlagsFollow s (takeLowNibble v s) cleared dchar valid := by
  simp [FlagsFollow, takeLowNibble, herr, hhv, hdchar, hvalid]

theorem flagsFollow_takeHighNibble (v : Nibble) (herr : s.err = false) (hhv : s.hv = false)
    (hdchar : dchar) (hvalid : valid) : FlagsFollow s (takeHighNibble v s) cleared dchar valid := by
  simp [FlagsFollow, takeHighNibble, herr, hhv, hdchar, hvalid]

/-- A character, by its four cases. -/
theorem exec_dchar_flagsFollow (s : State) (c : Byte) (hcleared : ¬cleared) (hdchar : dchar) :
    ∃ t, exec (.dchar c) s = .next t ∧ FlagsFollow s t cleared dchar ((validate (fold c)).ok = true) := by
  obtain ⟨herr, h⟩ | ⟨herr, hok, h⟩ | ⟨herr, hok, hhv, h⟩ | ⟨herr, hok, hhv, h⟩ := execDchar_cases c s
  · exact ⟨_, h, flagsFollow_of_held (decoderRegs_repeatError s) hcleared fun _ => herr⟩
  · exact ⟨_, h, flagsFollow_takeInvalid _ herr hcleared hdchar (by simp [hok])⟩
  · exact ⟨_, h, flagsFollow_takeLowNibble _ herr hhv hdchar hok⟩
  · exact ⟨_, h, flagsFollow_takeHighNibble _ herr hhv hdchar hok⟩

end FlagsFollow

theorem clearingWord_not_dcharRow {w : CmdWord} (hw : w = 0x4000 ∨ w = 0x8000) : w &&& 0xFF00 ≠ 0x6000 := by
  obtain rfl | rfl := hw <;> decide

theorem step_offer_flagsFollow (s : State) (w : CmdWord) :
    ∃ t, step (present (offer w) s) = .next t ∧
      FlagsFollow s t (w = 0x4000 ∨ w = 0x8000) (w &&& 0xFF00 = 0x6000)
        ((validate (fold (w.setWidth 8))).ok = true) := by
  by_cases hclear : w = 0x4000 ∨ w = 0x8000
  · obtain ⟨t, hstep, ht⟩ := step_clears_decoder s (offer w) (.inr ⟨rfl, hclear⟩)
    exact ⟨t, hstep, flagsFollow_of_cleared ht hclear (clearingWord_not_dcharRow hclear)⟩
  by_cases hC : w &&& 0xFF00 = 0x6000
  · rw [step_dcharRow hC]
    exact exec_dchar_flagsFollow s _ hclear hC
  · have hother : isDecoderWord w = false := Bool.eq_false_iff.2 fun h => by
      have := isDecoderWord_iff.1 h
      tauto
    obtain ⟨t, hstep, -, hregs, -⟩ := step_otherWord s hother
    exact ⟨t, hstep, flagsFollow_of_held hregs hclear fun h => absurd h hC⟩

/-- Settles O52: reset clears, an idle edge holds, and an accepted word by its row (`step_offer_flagsFollow`). -/
theorem flagsChangeOnlyAsListed : Obligations.FlagsChangeOnlyAsListed := by
  intro s p
  obtain ⟨valid, w, rfl⟩ | ⟨w, rfl⟩ | ⟨w, rfl⟩ := portSample_cases p
  · exact ⟨_, step_reset s valid w, flagsFollow_of_cleared (decoderCleared_resetEdge s) (.inl rfl) (by simp)⟩
  · exact ⟨_, step_idle s w, flagsFollow_of_held rfl (by simp) (by simp)⟩
  · obtain ⟨t, hstep, hfollow⟩ := step_offer_flagsFollow s w
    refine ⟨t, hstep, ?_⟩
    simpa [FlagsFollow, offer] using hfollow

end Sys2Proof.Machine

/-! PROOFS. The laws of encode and decode over whole sequences (spec/40_encoder.md R111, spec/41_decoder.md R162,
R163). -/

namespace Sys2Proof.Machine

/-! Encode (R111). -/

theorem length_encodeClosed (k : LetterCase) (bs : List Byte) : (encodeClosed k bs).length = 2 * bs.length := by
  simp [encodeClosed, List.length_flatMap, mul_comm]

theorem romRead_mem (k : LetterCase) (i : Nibble) : romRead k i ∈ (rom k).toList :=
  Vector.mem_toList_iff.2 (Vector.getElem_mem i.isLt)

theorem mem_rom_of_mem_encodeClosed {k : LetterCase} {bs : List Byte} {c : Byte} (hc : c ∈ encodeClosed k bs) :
    c ∈ (rom k).toList := by
  obtain ⟨b, -, hc⟩ := List.mem_flatMap.1 hc
  obtain rfl | rfl : c = romRead k (hiNibble b) ∨ c = romRead k (loNibble b) := by simpa using hc
  · exact romRead_mem k _
  · exact romRead_mem k _

theorem decoderRegs_foldl_encodeByte (k : LetterCase) (bs : List Byte) (s : State) :
    decoderRegs (bs.foldl (fun u b => encodeByte k b u) s) = decoderRegs s := by
  induction bs generalizing s with
  | nil => rfl
  | cons b bs ih => exact (ih (encodeByte k b s)).trans (decoderRegs_encodeByte k b s)

/-- Settles O29: the laws of the closed form, and each ENC of the run keeps the decoder registers. -/
theorem encodeLengthAlphabetAndFrame : Obligations.EncodeLengthAlphabetAndFrame := fun s k bs =>
  ⟨_, _, _, hostCommands_encStr s k bs, hostEncode_eq_encodeClosed s k bs, length_encodeClosed k bs,
    fun _ => mem_rom_of_mem_encodeClosed, decoderRegs_foldl_encodeByte k bs s⟩

/-! What ENC words give inside any stream (R111 (c)). -/

/-- The case an ENC word selects (30_encoding.md R74). -/
def wordCase (w : CmdWord) : LetterCase := if caseField w = 0 then .upper else .lower

theorem exists_encode_of_isEncWord {w : CmdWord} (hw : isEncWord w = true) : ∃ k b, encode (encInstr k b) = w := by
  obtain hU | hL := isEncWord_iff.1 hw
  · exact ⟨.upper, w.setWidth 8, encode_of_decode (decode_eq_encU_iff.2 ⟨hU, rfl⟩)⟩
  · exact ⟨.lower, w.setWidth 8, encode_of_decode (decode_eq_encL_iff.2 ⟨hL, rfl⟩)⟩

@[simp] theorem wordCase_encode_encInstr (k : LetterCase) (b : Byte) : wordCase (encode (encInstr k b)) = k := by
  cases k <;> simp [wordCase, encode, encInstr]

@[simp] theorem dataField_encode_encInstr (k : LetterCase) (b : Byte) : dataField (encode (encInstr k b)) = b := by
  cases k <;> simp [encode, encInstr]

theorem step_encWord (s : State) {w : CmdWord} (hw : isEncWord w = true) :
    step (present (offer w) s) = .next (encodeByte (wordCase w) (dataField w) s) := by
  obtain ⟨k, b, rfl⟩ := exists_encode_of_isEncWord hw
  rw [step_offer_encode, exec_encInstr, wordCase_encode_encInstr, dataField_encode_encInstr]

theorem step_notEncWord (s : State) {w : CmdWord} (hw : isEncWord w = false) :
    ∃ t, step (present (offer w) s) = .next t ∧ t.rspValid = true ∧ rspNout t.rsp ≠ 2 := by
  have hEnc := mt isEncWord_iff.2 (Bool.eq_false_iff.1 hw)
  by_cases hByte : w &&& 0xFF00 = 0x6000 ∧ s.err = false ∧ s.hv = true ∧ (validate (fold (w.setWidth 8))).ok = true
  · obtain ⟨hC, herr, hhv, hok⟩ := hByte
    exact ⟨_, (step_dcharRow hC).trans (exec_dchar_low herr hok hhv), rfl, by simp [takeLowNibble]⟩
  · obtain ⟨st, p, pend, u, hstep⟩ := step_noOutput hEnc hByte
    exact ⟨_, hstep, rfl, by simp [statusResponse]⟩

/-- The output of the responses with two elements. -/
def pairOutputs (rs : List RspWord) : List Byte := (rs.filter fun r => rspNout r == 2).flatMap rspOutputs

theorem pairOutputs_cons_encodeByte (k : LetterCase) (b : Byte) (s : State) (rs : List RspWord) :
    pairOutputs ((encodeByte k b s).rsp :: rs) =
      romRead k (hiNibble b) :: romRead k (loNibble b) :: pairOutputs rs := by
  have hpos : rspNout (encodeByte k b s).rsp = 2 := rspNout_pack _
  simp [pairOutputs, hpos]

theorem pairOutputs_cons_of_ne {r : RspWord} (hr : rspNout r ≠ 2) (rs : List RspWord) :
    pairOutputs (r :: rs) = pairOutputs rs := by
  rw [pairOutputs, List.filter_cons_of_neg (by simpa using hr)]
  rfl

/-- What the ENC words of a stream stand for. -/
def encWordOutputs (ws : List CmdWord) : List Byte :=
  (ws.filter isEncWord).flatMap fun w =>
    [romRead (wordCase w) (hiNibble (dataField w)), romRead (wordCase w) (loNibble (dataField w))]

theorem hostWords_pairOutputs (s : State) (ws : List CmdWord) :
    ∃ t rs, hostWords s ws = some (t, rs) ∧ pairOutputs rs = encWordOutputs ws := by
  induction ws generalizing s with
  | nil => exact ⟨s, [], rfl, rfl⟩
  | cons w ws ih =>
    cases hw : isEncWord w with
    | true =>
      obtain ⟨t, rs, hws, hout⟩ := ih (encodeByte (wordCase w) (dataField w) s)
      refine ⟨t, _, hostWords_cons (step_encWord s hw) rfl hws, ?_⟩
      rw [pairOutputs_cons_encodeByte, hout, encWordOutputs, encWordOutputs, List.filter_cons_of_pos hw]
      rfl
    | false =>
      obtain ⟨u, hstep, hvalid, hnout⟩ := step_notEncWord s hw
      obtain ⟨t, rs, hws, hout⟩ := ih u
      refine ⟨t, _, hostWords_cons hstep hvalid hws, ?_⟩
      rw [pairOutputs_cons_of_ne hnout, hout, encWordOutputs, encWordOutputs, List.filter_cons_of_neg (by simp [hw])]

/-- Settles O30: by induction on the stream; an ENC word adds its pair, and no other response has two elements. -/
theorem encOutputsIgnoreOtherCommands : Obligations.EncOutputsIgnoreOtherCommands := hostWords_pairOutputs

/-! Decode after encode (R162 (a)). -/

/-- Each entry of either ROM is valid, with its index as the nibble. -/
theorem validate_fold_romRead (k : LetterCase) : ∀ i : Nibble, validate (fold (romRead k i)) = ⟨true, i, 0⟩ := by
  cases k <;> decide

theorem firstInvalid_encodeClosed (k : LetterCase) (bs : List Byte) : firstInvalid (encodeClosed k bs) = none := by
  refine firstInvalid_eq_none_iff.2 fun c hc => ?_
  obtain ⟨b, -, hc⟩ := List.mem_flatMap.1 hc
  obtain rfl | rfl : c = romRead k (hiNibble b) ∨ c = romRead k (loNibble b) := by simpa using hc
  all_goals rw [validate_fold_romRead]

theorem mergePairs_encodeClosed (k : LetterCase) (bs : List Byte) :
    mergePairs ((encodeClosed k bs).map fun c => (validate (fold c)).v) = bs := by
  induction bs with
  | nil => rfl
  | cons b bs ih =>
    rw [encodeClosed] at ih
    simp [encodeClosed, validate_fold_romRead, mergePairs, merge_nibbles, ih]

theorem decodeClosed_encodeClosed (k : LetterCase) (bs : List Byte) : decodeClosed (encodeClosed k bs) = .ok bs := by
  rw [decodeClosed_of_even (firstInvalid_encodeClosed k bs) (by rw [length_encodeClosed]; omega),
    mergePairs_encodeClosed]

/-- Settles O44: both operations are their closed forms, and the merge of a byte's two nibbles is the byte. -/
theorem decodeInvertsEncode : Obligations.DecodeInvertsEncode := fun s s' k bs => by
  rw [hostEncode_eq_encodeClosed, Option.bind_some, hostDecode_eq_decodeClosed, decodeClosed_encodeClosed]

/-! Letter case, state and length (R162 (b), (d), (f)). -/

theorem fold_toUpper (c : Byte) : fold (toUpper c) = fold c := by
  unfold toUpper
  split_ifs with hlower
  · rw [fold_of_upper (by bv_omega), fold_of_not_upper (by bv_omega)]
    bv_omega
  · rfl

/-- Characters that fold alike decode alike. -/
theorem decodeClosed_map_of_fold_eq {f : Byte → Byte} (hf : ∀ c, fold (f c) = fold c) (cs : List Byte) :
    decodeClosed (cs.map f) = decodeClosed cs := by
  simp [decodeClosed, firstInvalid, Function.comp_def, hf]

theorem length_mergePairs (ns : List Nibble) : (mergePairs ns).length = ns.length / 2 := by
  induction ns using mergePairs.induct with
  | case1 n1 n2 ns ih =>
    simp only [mergePairs, List.length_cons, ih]
    omega
  | case2 ns hshort =>
    match ns with
    | [] | [_] => simp [mergePairs]
    | n1 :: n2 :: ns => exact absurd rfl (hshort n1 n2 ns)

theorem length_of_decodeClosed_ok {cs bs : List Byte} (h : decodeClosed cs = .ok bs) :
    bs.length = cs.length / 2 ∧ cs.length % 2 = 0 := by
  unfold decodeClosed at h
  split at h
  · simp at h
  split_ifs at h with hodd
  obtain rfl := DecodeResult.ok.inj h
  rw [length_mergePairs, List.length_map]
  omega

/-- Settles O45: the closed form has no state and reads a character by its fold alone. -/
theorem decodeIgnoresCaseAndState : Obligations.DecodeIgnoresCaseAndState := by
  intro s s' cs
  simp only [hostDecode_eq_decodeClosed, decodeClosed_map_of_fold_eq fold_toUpper,
    decodeClosed_map_of_fold_eq fold_fold,
    Option.some.injEq, true_and]
  exact fun _ => length_of_decodeClosed_ok

/-! A stream with other words between the decoder's (R163). -/

/-- What two runs have in common, one of the words `ws` with the responses `rs`, one of the decoder's words among them
with the responses `qs`. -/
structure SameDecode (ws : List CmdWord) (t u : State) (rs qs : List RspWord) : Prop where
  regs : decoderRegs t = decoderRegs u
  bytes : decodedBytes rs = decodedBytes qs
  length : rs.length = ws.length
  answers : (((ws.zip rs).filter fun wr => isDecoderWord wr.1).map fun wr => wr.2) = qs

theorem SameDecode.cons_decoderWord {w : CmdWord} {ws : List CmdWord} {t u : State} {rs qs : List RspWord}
    (hw : isDecoderWord w = true) (r : RspWord) (h : SameDecode ws t u rs qs) :
    SameDecode (w :: ws) t u (r :: rs) (r :: qs) where
  regs := h.regs
  bytes := by
    rw [← List.singleton_append, decodedBytes_append, h.bytes, ← decodedBytes_append, List.singleton_append]
  length := congrArg (· + 1) h.length
  answers := by simp [hw, h.answers]

theorem decodedBytes_cons_of_ne {r : RspWord} (hr : rspNout r ≠ 1) (rs : List RspWord) :
    decodedBytes (r :: rs) = decodedBytes rs := by
  rw [decodedBytes, List.filter_cons_of_neg (by simpa using hr)]
  rfl

theorem SameDecode.cons_otherWord {w : CmdWord} {ws : List CmdWord} {t u : State} {r : RspWord} {rs qs : List RspWord}
    (hw : isDecoderWord w = false) (hr : rspNout r ≠ 1) (h : SameDecode ws t u rs qs) :
    SameDecode (w :: ws) t u (r :: rs) qs where
  regs := h.regs
  bytes := (decodedBytes_cons_of_ne hr rs).trans h.bytes
  length := congrArg (· + 1) h.length
  answers := by simp [hw, h.answers]

theorem hostWords_filter_isDecoderWord {s s' : State} (ws : List CmdWord) (hregs : decoderRegs s = decoderRegs s') :
    ∃ t u rs qs, hostWords s ws = some (t, rs) ∧ hostWords s' (ws.filter isDecoderWord) = some (u, qs) ∧
      SameDecode ws t u rs qs := by
  induction ws generalizing s s' with
  | nil => exact ⟨s, s', [], [], rfl, rfl, hregs, rfl, rfl, rfl⟩
  | cons w ws ih =>
    cases hw : isDecoderWord w with
    | true =>
      obtain ⟨v, v', hstep, hstep', hvregs, hvalid, hvalid', hrsp⟩ := step_offer_sameAnswer w hregs
      obtain ⟨t, u, rs, qs, hws, hws', h⟩ := ih hvregs
      rw [List.filter_cons_of_pos hw]
      exact ⟨t, u, _, _, hostWords_cons hstep hvalid hws, hrsp ▸ hostWords_cons hstep' hvalid' hws',
        h.cons_decoderWord hw v.rsp⟩
    | false =>
      obtain ⟨v, hstep, hvalid, hvregs, hnout⟩ := step_otherWord s hw
      obtain ⟨t, u, rs, qs, hws, hws', h⟩ := ih (hvregs.trans hregs)
      rw [List.filter_cons_of_neg (by simp [hw])]
      exact ⟨t, u, _, qs, hostWords_cons hstep hvalid hws, hws', h.cons_otherWord hw hnout⟩

/-- Settles O46: by induction on the stream; a decoder's word gives the same response in both runs, and any other keeps
the decoder registers (`step_otherWord`). -/
theorem otherWordsDoNotTouchTheDecoder : Obligations.OtherWordsDoNotTouchTheDecoder := by
  intro s ws
  obtain ⟨t, u, rs, qs, hws, hws', h⟩ := hostWords_filter_isDecoderWord (s := s) ws rfl
  exact ⟨t, u, rs, qs, hws, hws', h.regs, h.bytes, h.length, h.answers⟩

end Sys2Proof.Machine

/-! PROOFS. The assembler and the disassembler (spec/30_encoding.md R91): the word of each line, and the text a word is
printed as, read back. -/

namespace Sys2Proof.Machine

/-! The word of each line. -/

/-- Settles O55: an operand in range is its value (`bits_of_value`), and each row's word is its fixed bits with DATA. -/
theorem assembledWords : Obligations.AssembledWords := by
  refine ⟨fun o b h => ?_, rfl, rfl, fun o w h => ?_⟩
  · simp [assemble, bits_of_value o b h, encode_encU, encode_encL, encode_dchar]
  · simp [assemble, bits_of_value o w h]

/-! Strings outside ASCII (logs 10, 17). -/

theorem toNat_charCode {c : Char} (h : c.toNat < 0x100) : (BitVec.ofNat 8 c.toNat).toNat = c.toNat := by
  rw [BitVec.toNat_ofNat, Nat.mod_eq_of_lt h]

theorem mapM_bits_refused {os : List Operand} (h : ∃ o ∈ os, o.bits 8 = none) : os.mapM (Operand.bits 8) = none := by
  obtain ⟨o, ho, hrefused⟩ := h
  induction os with
  | nil => simp at ho
  | cons p os ih =>
    rw [List.mapM_cons]
    obtain rfl | ho := List.mem_cons.1 ho
    · rw [hrefused]
      rfl
    · rw [ih ho]
      cases p.bits 8 <;> rfl

theorem bytes_string_refused {cs : List Char} (h : ∃ c ∈ cs, 0x100 ≤ c.toNat) : SeqOperand.bytes (.string cs) = none :=
  let ⟨c, hc, hcode⟩ := h
  mapM_bits_refused ⟨.quoted c, List.mem_map_of_mem hc, bits_out_of_range _ hcode⟩

/-- Settles O57: a string is read as its characters' codes (`bytes_string`), or not at all (`bytes_string_refused`). -/
theorem stringsOutsideAscii : Obligations.StringsOutsideAscii := by
  refine ⟨fun cs hcodes => ⟨cs.map fun c => BitVec.ofNat 8 c.toNat, ?_, ?_, ?_, ?_⟩, fun cs hcs => ?_⟩
  · rw [List.map_map]
    exact List.map_congr_left fun c hc => toNat_charCode (hcodes c hc)
  · rw [assemble, bytes_string hcodes, Option.map_some]
  · rw [assemble, bytes_string hcodes, Option.map_some]
  · rw [assemble, bytes_string hcodes, Option.map_some]
  · simp only [assemble, bytes_string_refused hcs, Option.map_none, and_self]

/-! The line a word is printed as. -/

theorem assemble_disassemble (w : CmdWord) : assemble (disassemble w) = some [w] := by
  cases hd : decode w with
  | error e => rw [disassemble, hd, assemble, bits_of_value _ w rfl, Option.map_some]
  | ok i =>
    rw [disassemble, hd, ← encode_of_decode hd]
    cases i with
    | dbegin | dend => rfl
    | encU b | encL b | dchar b => rw [assemble, bits_of_value _ b rfl, Option.map_some]

theorem disassemble_eq_word_iff (w : CmdWord) : wellFormedWord w = false ↔ disassemble w = .word (.hex w.toNat) := by
  rw [wellFormedWord_eq_false_iff, disassemble]
  cases hd : decode w with
  | error e => simp
  | ok i => cases i <;> simp

/-! Numbers in text: digits printed and read back. -/

/-- The value of the lowest `d` hexadecimal digits of a number, the lowest first. -/
theorem ofDigits_lowDigits (d n : Nat) :
    Nat.ofDigits 16 ((List.range d).map fun i => n / 16 ^ i % 16) = n % 16 ^ d := by
  induction d generalizing n with
  | zero => simp [Nat.mod_one]
  | succ d ih =>
    have hshift : (List.range d).map ((fun i => n / 16 ^ i % 16) ∘ Nat.succ) =
        (List.range d).map fun i => n / 16 / 16 ^ i % 16 := by
      simp [Function.comp_def, pow_succ', Nat.div_div_eq_div_mul]
    rw [List.range_succ_eq_map, List.map_cons, List.map_map, hshift, Nat.ofDigits_cons, ih, pow_succ', Nat.mod_mul]
    simp

theorem digitValue_hexDigit_mod (n : Nat) : digitValue (hexDigit n) = some (n % 16) := by
  rw [← hexDigit_mod, digitValue_hexDigit _ (Nat.mod_lt n (by decide))]

theorem mapM_digitValue_hexDigit (ns : List Nat) : (ns.map hexDigit).mapM digitValue = some (ns.map (· % 16)) := by
  induction ns with
  | nil => rfl
  | cons n ns ih => simp [List.mapM_cons, digitValue_hexDigit_mod, ih]

theorem readNumber_hexDigits {d n : Nat} (hd : d ≠ 0) (hn : n < 16 ^ d) :
    readNumber 16 ((List.range d).reverse.map fun i => hexDigit (n / 16 ^ i)) = some n := by
  have hdigits : ((List.range d).reverse.map fun i => hexDigit (n / 16 ^ i)).mapM digitValue =
      some ((List.range d).map fun i => n / 16 ^ i % 16).reverse := by
    simpa [List.map_map, Function.comp_def] using mapM_digitValue_hexDigit ((List.range d).reverse.map (n / 16 ^ ·))
  have hvalue : Nat.ofDigits 16 ((List.range d).map fun i => n / 16 ^ i % 16) = n := by
    rw [ofDigits_lowDigits, Nat.mod_eq_of_lt hn]
  rw [readNumber, hdigits]
  simp [hvalue, hd, Nat.mod_lt]

theorem readOperand_hexText {d n : Nat} (hd : d ≠ 0) (hn : n < 16 ^ d) : readOperand (hexText d n) = some (.hex n) := by
  rw [hexText, readOperand, readNumber_hexDigits hd hn, Option.map_some]

/-! Text without comment and quotes, and without blanks at its ends. -/

/-- A character that begins neither a comment nor a quotation: no semicolon and neither of the two quotes (U+0022,
U+0027). -/
def IsPlain (c : Char) : Prop := c ≠ ';' ∧ c ≠ '\x22' ∧ c ≠ '\x27'

theorem hexDigit_isPlain (n : Nat) : IsPlain (hexDigit n) ∧ isBlank (hexDigit n) = false := by
  have hdigits : ∀ n < 16, IsPlain (hexDigit n) ∧ isBlank (hexDigit n) = false := by
    unfold IsPlain
    decide
  exact hexDigit_mod n ▸ hdigits _ (Nat.mod_lt n (by decide))

theorem isPlain_of_mem_hexText {d n : Nat} : ∀ c ∈ hexText d n, IsPlain c ∧ isBlank c = false := by
  have hzero : IsPlain '0' ∧ isBlank '0' = false := by unfold IsPlain; decide
  have hx : IsPlain 'x' ∧ isBlank 'x' = false := by unfold IsPlain; decide
  simp [hexText, hzero, hx, hexDigit_isPlain]

theorem stripComment_plain {cs : List Char} (h : ∀ c ∈ cs, IsPlain c) : stripComment false cs = cs := by
  induction cs with
  | nil => rfl
  | cons c cs ih =>
    obtain ⟨⟨hcomment, hstring, hquote⟩, hcs⟩ := List.forall_mem_cons.1 h
    rw [stripComment, if_neg hcomment, beq_false_of_ne hstring, ih hcs]
    rintro _ _ rfl
    exact absurd rfl hquote

theorem dropWhile_isBlank_of_head {cs : List Char} (h : ∀ c ∈ cs.head?, isBlank c = false) :
    cs.dropWhile isBlank = cs := by
  cases cs with
  | nil => rfl
  | cons c cs => exact List.dropWhile_cons_of_neg (by simpa using h c rfl)

theorem trim_of_ends {cs : List Char} (hhead : ∀ c ∈ cs.head?, isBlank c = false)
    (hlast : ∀ c ∈ cs.getLast?, isBlank c = false) : trim cs = cs := by
  rw [trim, dropWhile_isBlank_of_head hhead, dropWhile_isBlank_of_head (by rwa [List.head?_reverse]),
    List.reverse_reverse]

theorem trim_hexText (d n : Nat) : trim (hexText d n) = hexText d n :=
  trim_of_ends (fun c hc => (isPlain_of_mem_hexText c (List.mem_of_mem_head? hc)).2)
    fun c hc => (isPlain_of_mem_hexText c (List.mem_of_getLast? hc)).2

/-! A printed line, read back. -/

/-- A name with its blank that the reader takes for the line of an operand. -/
structure NamesLine (name : List Char) (line : Operand → AsmLine) : Prop where
  plain : ∀ c ∈ name, IsPlain c
  head : ∃ c, name.head? = some c ∧ isBlank c = false
  reads : ∀ operand, readBody (name ++ operand) = (readOperand (trim operand)).map line

theorem NamesLine.assembleText_hexText {name : List Char} {line : Operand → AsmLine} (h : NamesLine name line)
    {d n : Nat} (hd : d ≠ 0) (hn : n < 16 ^ d) : assembleText (name ++ hexText d n) = assemble (line (.hex n)) := by
  have hplain : ∀ c ∈ name ++ hexText d n, IsPlain c := fun c hc =>
    (List.mem_append.1 hc).elim (h.plain c) fun hc => (isPlain_of_mem_hexText c hc).1
  have hne : hexText d n ≠ [] := List.cons_ne_nil _ _
  have htrim : trim (name ++ hexText d n) = name ++ hexText d n := by
    obtain ⟨b, hb, hblank⟩ := h.head
    refine trim_of_ends (by simp [hb, hblank]) fun c hc => ?_
    rw [List.getLast?_append_of_ne_nil _ hne] at hc
    exact (isPlain_of_mem_hexText c (List.mem_of_getLast? hc)).2
  simp [assembleText, stripComment_plain hplain, htrim, hne, h.reads, trim_hexText, readOperand_hexText hd hn]

theorem namesLine_encU : NamesLine "ENC.U ".toList .encU where
  plain := by simp [IsPlain]
  head := ⟨'E', rfl, rfl⟩
  reads _ := rfl

theorem namesLine_encL : NamesLine "ENC.L ".toList .encL where
  plain := by simp [IsPlain]
  head := ⟨'E', rfl, rfl⟩
  reads _ := rfl

theorem namesLine_dchar : NamesLine "DCHAR ".toList .dchar where
  plain := by simp [IsPlain]
  head := ⟨'D', rfl, rfl⟩
  reads _ := rfl

theorem namesLine_word : NamesLine ".word ".toList .word where
  plain := by simp [IsPlain]
  head := ⟨'.', rfl, rfl⟩
  reads _ := rfl

theorem assembleText_dbegin : assembleText "DBEGIN".toList = assemble .dbegin := by decide

theorem assembleText_dend : assembleText "DEND".toList = assemble .dend := by decide

theorem assembleText_printWord (w : CmdWord) : assembleText (printWord w) = assemble (disassemble w) := by
  cases hd : decode w with
  | error e =>
    rw [printWord, disassemble, hd]
    exact namesLine_word.assembleText_hexText (by decide) w.isLt
  | ok i =>
    rw [printWord, disassemble, hd]
    cases i with
    | encU b => exact namesLine_encU.assembleText_hexText (by decide) b.isLt
    | encL b => exact namesLine_encL.assembleText_hexText (by decide) b.isLt
    | dchar c => exact namesLine_dchar.assembleText_hexText (by decide) c.isLt
    | dbegin => exact assembleText_dbegin
    | dend => exact assembleText_dend

/-- Settles O54: the printed text reads back as the printed line, whose operand is in range. -/
theorem disassembledWordAssemblesToItself : Obligations.DisassembledWordAssemblesToItself := fun w =>
  ⟨assemble_disassemble w, (assembleText_printWord w).trans (assemble_disassemble w), disassemble_eq_word_iff w⟩

end Sys2Proof.Machine
